-- ==== Sys2Proof/Word.lean ====
section
/-! DEFINITION. The 32-bit word and its two integer readings (00_scope.md R8, 10_state.md R21). -/

namespace Sys2Proof

/-- A word: a 32-bit pattern (R8, R21). -/
abbrev Word := BitVec 32

/-- `u(v)`: the word read as an unsigned integer (R8). -/
abbrev uval (v : Word) : Nat := v.toNat

/-- `s(v)`: the word read as a two's-complement signed integer (R8). -/
abbrev sval (v : Word) : Int := v.toInt

/-- `w32(z)`: the word `z mod 2^32` of an integer `z` (R8). -/
def w32 (z : Int) : Word := BitVec.ofInt 32 z

end Sys2Proof
end

