-- ==== Sys2Proof/Syntax.lean ====
section
/-! DEFINITION. The 22 instructions of Redcode as syntax (00_scope.md R2, 30_encoding.md R95, R111): one constructor per
row of spec/opcode_table.json. A constructor carries the operands that the instruction uses (R111), as the values that
execution uses (R96): register numbers 0 to 31, immediates already sign- or zero-extended. Unused fields of the word
are ignored by the machine (R103) and are not part of the syntax (log entry 23). -/

namespace Sys2Proof

/-- A general register number, 0 to 31 (10_state.md R26). -/
abbrev Reg := Fin 32

/-- The 22 mnemonics (R2). `opn` stands for the mnemonic `open`, which is a word of Lean's own (log entry 37). -/
inductive Mnemonic where
  | sllv | srlv | jr | syscall | hlt | mult | divu | sub | xor | slt
  | blez | bgez | j | bne | slti | andi | frk | opn | rfrk | rsw | lw | sw
deriving DecidableEq, Repr

/-- The three instruction formats (30_encoding.md R91 to R93). -/
inductive Format where
  | R | I | J
deriving DecidableEq, Repr

/-- An instruction with its operands. The operand names are the field names of R91 to R93. -/
inductive Instr where
  /-- R181: `rd <- rt << rs`. -/
  | sllv (rd rt rs : Reg)
  /-- R182: `rd <- rt >>> rs`. -/
  | srlv (rd rt rs : Reg)
  /-- R155: jump to the address in `rs`. -/
  | jr (rs : Reg)
  /-- R208: machine services. -/
  | syscall
  /-- R201: halt the executing process. -/
  | hlt
  /-- R190: signed 64-bit product into `HI`, `LO`. -/
  | mult (rs rt : Reg)
  /-- R191: magnitudes of quotient and remainder into `LO`, `HI`. -/
  | divu (rs rt : Reg)
  /-- R177: `rd <- rs - rt`. -/
  | sub (rd rs rt : Reg)
  /-- R178: `rd <- rs ^ rt`. -/
  | xor (rd rs rt : Reg)
  /-- R179: `rd <- (rs < rt)`, signed. -/
  | slt (rd rs rt : Reg)
  /-- R152: branch if `rs <= 0`. -/
  | blez (rs : Reg) (imm : Int)
  /-- R151: branch if `rs >= 0`. -/
  | bgez (rs : Reg) (imm : Int)
  /-- R154: relative jump. -/
  | j (target : Int)
  /-- R153: branch if `rs != rt`. -/
  | bne (rs rt : Reg) (imm : Int)
  /-- R141: `rt <- (rs < imm)`, signed. -/
  | slti (rt rs : Reg) (imm : Int)
  /-- R140: `rt <- rs & imm`, zero-extended. -/
  | andi (rt rs : Reg) (imm : Nat)
  /-- R203: fork at the address in `rt`. -/
  | frk (rt : Reg)
  /-- R223: the reserved instruction `open`. -/
  | opn
  /-- R224: reserved. -/
  | rfrk
  /-- R225: reserved. -/
  | rsw
  /-- R165: `rt <- core[rs + imm]`. -/
  | lw (rt rs : Reg) (imm : Int)
  /-- R166: `core[rs + imm] <- rt`. -/
  | sw (rt rs : Reg) (imm : Int)
deriving DecidableEq, Repr

/-- The mnemonic of an instruction. -/
def Instr.mnemonic : Instr → Mnemonic
  | .sllv _ _ _ => .sllv
  | .srlv _ _ _ => .srlv
  | .jr _ => .jr
  | .syscall => .syscall
  | .hlt => .hlt
  | .mult _ _ => .mult
  | .divu _ _ => .divu
  | .sub _ _ _ => .sub
  | .xor _ _ _ => .xor
  | .slt _ _ _ => .slt
  | .blez _ _ => .blez
  | .bgez _ _ => .bgez
  | .j _ => .j
  | .bne _ _ _ => .bne
  | .slti _ _ _ => .slti
  | .andi _ _ _ => .andi
  | .frk _ => .frk
  | .opn => .opn
  | .rfrk => .rfrk
  | .rsw => .rsw
  | .lw _ _ _ => .lw
  | .sw _ _ _ => .sw

/-- The format of each instruction (R95). -/
def Mnemonic.format : Mnemonic → Format
  | .sllv | .srlv | .jr | .syscall | .hlt | .mult | .divu | .sub | .xor | .slt => .R
  | .j => .J
  | .blez | .bgez | .bne | .slti | .andi | .frk | .opn | .rfrk | .rsw | .lw | .sw => .I

/-- The instructions whose `rt` field is not an operand, the only ones that may sit at opcode 1 (R99, W5). -/
def Mnemonic.rtFree : Mnemonic → Bool
  | .bgez | .blez | .opn | .rfrk | .rsw => true
  | .sllv | .srlv | .jr | .syscall | .hlt | .mult | .divu | .sub | .xor | .slt
  | .j | .bne | .slti | .andi | .frk | .lw | .sw => false

end Sys2Proof
end

