-- ==== Sys2Proof/Config.lean ====
section
/-! DEFINITION. The parameters of 00_scope.md R6: what the machine's builder or host fixes, and the free values,
which have no body. The default table is in Decode.lean, the default policy in
Machine/Scheduler.lean, `FIRST_PID` in Machine/Ops.lean. -/

namespace Sys2Proof

/-- One entry `(name, opcode, second)` of the mnemonic table (30_encoding.md R98). `second` is the funct for opcode 0,
the `rt` selector for opcode 1, and is ignored otherwise. -/
structure TableEntry where
  name : Mnemonic
  opcode : Nat
  second : Nat
deriving DecidableEq, Repr

/-- What a tick does with a fetched word that resolves to no instruction (47_scheduler_fetch.md R247). -/
inductive UnknownPolicy where
  /-- The tick is the machine fault `UnknownInstruction`, no state changes. -/
  | fault
  /-- The executing process is killed and its `pc` advances. -/
  | kill
deriving DecidableEq, Repr

/-- The parameters a step reads (10_state.md R20): the mnemonic table and the unknown-word policy. -/
structure Config where
  table : List TableEntry
  unknownPolicy : UnknownPolicy
deriving DecidableEq, Repr

/-- The core size of `State.reset`. The spec leaves `N` to the host, 1 to 65535 (R6, R310): DESIGN CHOICE, unsafe, the
largest size (log entry 1). `construct` builds the reset state for every size. -/
def Config.coreSize : Nat := 65535

/-- `HLT_WORD`: the forced-halt word, and a cell's word after construction (R6, 30_encoding.md R108). -/
def Config.hltWord : Word := 13#32

/-- FREE VALUE: the draws of `syscall` service 1, by the number of draws taken before (R12, 46_process_system.md R210,
U11). No body: nothing can be proved of its values (safe, log entry 4). -/
opaque Config.freeDraw : Nat → Word

end Sys2Proof
end

