-- ==== Sys2Proof/Machine/State.lean ====
section
/-! DEFINITION. The whole state of the machine (10_state.md), as plain data, its reset value, and the reasons a step can
stop. Memory is keyed by cell: a cell holds one 32-bit word and an owner tag, and there are no bytes (20_memory.md R60,
R62; log entry 9). -/

namespace Sys2Proof.Machine

/-- An owner tag: the group, by player number, and the process id (R24). -/
structure OwnerTag where
  player : Nat
  pid : Nat
deriving DecidableEq, Repr

/-- A cell: a word and its current owner, none while nothing has written it (R22, R24). -/
structure Cell where
  word : Word
  owner : Option OwnerTag
deriving DecidableEq, Repr

/-- The core as a list of (address, cell) pairs in canonical form: addresses strictly rising, no entry equal to
the unwritten cell. Its operations are in Machine/Ops.lean. -/
abbrev Memory := List (Nat × Cell)

/-- A process (R26). Register 0 is hard-wired by `Process.read` and `Process.write` (R27). -/
structure Process where
  /-- The 32 general registers. -/
  x : Vector Word 32
  /-- The program counter: a cell address, read as signed (R28). -/
  pc : Word
  /-- `HI` (R29). -/
  hi : Word
  /-- `LO` (R29). -/
  lo : Word
  /-- The liveness flag, the machine's only flag (R30). -/
  alive : Bool
  /-- The id, unique within the group (R31). -/
  id : Nat
  /-- The owning group, by player number. -/
  player : Nat
  /-- The assembled program the process was created from (R32). -/
  prog : List Word
deriving DecidableEq, Repr

/-- A group of processes, one per player (R33). -/
structure Group where
  player : Nat
  /-- The processes, in creation order; never shrinks. -/
  procs : List Process
  /-- The group's round-robin cursor. -/
  pcur : Nat
  /-- The index of the last process that executed, for introspection only. -/
  last : Option Nat
deriving DecidableEq, Repr

/-- The state of the machine (R20), and the model's own draw counter. -/
structure State where
  /-- `N`, the number of cells, fixed at construction (R23). -/
  coreSize : Nat
  /-- The core (R23). -/
  core : Memory
  /-- The groups, in order of each player's first load (R33). -/
  groups : List Group
  /-- The machine's cursor: the group whose turn the next tick is (R34). -/
  gcur : Nat
  /-- The MODEL's own field: how many random draws have been taken (log entry 4). -/
  draws : Nat
deriving DecidableEq, Repr

/-- FREE VALUE: `SCORE`, an open parameter, a function of the machine's state and a group about which nothing is
assumed (R6, R217, decision D15; safe, log entry 5). Its arguments are the spec's state: size, core, groups, cursor. -/
opaque score (coreSize : Nat) (core : Memory) (groups : List Group) (gcur : Nat) (g : Group) : Word

/-- Why the machine stops. The machine of the spec has one machine fault only (R13, R280). -/
inductive Fault where
  /-- Raised by a tick whose fetched word resolves to no instruction, under the policy `fault` (R247, decision D2): the
  word, and the cell address it was fetched from. Safe: the machine stops where the source gives no behaviour. -/
  | unknownInstruction (word : Word) (address : Int)
deriving DecidableEq, Repr

/-- Why the model refuses a step (R13). -/
inductive Refusal where
  /-- Raised by an arm of `exec` for an instruction that has no meaning yet. Safe: nothing is claimed of it. -/
  | notModelled (mnemonic : String)
  /-- Raised by `syscall` services 8 and 11 when register 2 names no existing group (R217, R220, U9): the service and
  the signed value of register 2. Safe: the spec refuses the step because the source gives it no behaviour. -/
  | noSuchGroup (service : Nat) (player : Int)
deriving DecidableEq, Repr

/-- The reset state for a core of `n` cells: what `Construct(n)` gives (R310, R42, R43). -/
def State.ofSize (n : Nat) : State := { coreSize := n, core := [], groups := [], gcur := 0, draws := 0 }

/-- The machine right after reset: `Construct` with the size of `Config.coreSize` (R310, R42, R43; log entry 1). -/
def State.reset : State := State.ofSize Config.coreSize

end Sys2Proof.Machine
end

