-- ==== Sys2Proof/Machine/Flags.lean ====
section
/-! DEFINITION. The machine's only flag is the liveness flag of a process (10_state.md R30); there are no condition codes.
This file holds every computation of and over it, and the 0 or 1 a compare instruction writes to a register. -/

namespace Sys2Proof.Machine

/-- `Kill(p)`: clear the liveness flag, nothing else (60_exceptions.md R283). -/
def Process.kill (p : Process) : Process := { p with alive := false }

/-- The result of a compare instruction: 1 if it holds, else 0 (R30, R141, R179). -/
def boolWord (b : Bool) : Word := if b then 1#32 else 0#32

/-- Is the process at an index alive? False beyond the list. -/
def Group.aliveAt (g : Group) (i : Nat) : Bool := (g.procs[i]?).any Process.alive

/-- `runnableCount(g)`: the number of live processes (R35). -/
def Group.runnableCount (g : Group) : Nat := g.procs.countP Process.alive

/-- `runnable(g)`: at least one live process (R35). -/
def Group.runnable (g : Group) : Bool := decide (1 ≤ g.runnableCount)

/-- `runnableGroups(m)` (R35). -/
def State.runnableGroups (s : State) : Nat := s.groups.countP Group.runnable

/-- `players(m)`: the number of groups that exist (R35, decision D14, C9). -/
def State.players (s : State) : Nat := s.groups.length

end Sys2Proof.Machine
end

