-- ==== Sys2Proof/Machine/Operands.lean ====
section
/-! DEFINITION. Every operand form: general registers, immediates, the effective address, the program counter's offsets,
and the shift amount. -/

namespace Sys2Proof.Machine

/-- `x[i]`: register 0 reads as the word 0 (10_state.md R27). -/
def Process.read (p : Process) (i : Reg) : Word := if i = 0 then 0#32 else p.x[i]

/-- `x[i] <- v`: a write of register 0 is discarded (R27). -/
def Process.write (p : Process) (i : Reg) (v : Word) : Process :=
  if i = 0 then p else { p with x := p.x.set i v }

/-- `w32(u(v) + z)`: a word moved by a signed offset, the one address sum of the machine (R28, R65). -/
def addOffset (v : Word) (z : Int) : Word := w32 ((uval v : Int) + z)

/-- `pc <- v` (R28). -/
def Process.setPc (p : Process) (v : Word) : Process := { p with pc := v }

/-- The default advance `pc <- w32(u(pc) + 1)` (47_scheduler_fetch.md R246). -/
def Process.advance (p : Process) : Process := p.setPc (addOffset p.pc 1)

/-- A taken branch or jump: the offset is added to the instruction's own address (42_branch_jump.md R150, decision D8;
log entry 14). -/
def Process.jumpBy (p : Process) (offset : Int) : Process := p.setPc (addOffset p.pc offset)

/-- `HI`, `LO` <- the two results of a multiply or divide (R29). -/
def Process.setHiLo (p : Process) (hi lo : Word) : Process := { p with hi := hi, lo := lo }

/-- The zero-extended immediate as a word (30_encoding.md R96). -/
def zextWord (imm : Nat) : Word := BitVec.ofNat 32 imm

/-- The effective address of `lw` and `sw`: `s(w32(u(x[rs]) + imm))` (20_memory.md R65, decision D4; log entry 13). -/
def effectiveAddress (p : Process) (rs : Reg) (imm : Int) : Int := sval (addOffset (p.read rs) imm)

/-- The shift amount: the low five bits of the register (44_alu_register.md R181, R182, decision D6; log entry 16). -/
def shiftAmount (v : Word) : Nat := uval v % 32

end Sys2Proof.Machine
end

