-- ==== Sys2Proof/Machine/Ops.lean ====
section
/-! DEFINITION. The named operations over the core, the groups and the process that is executing: the memory primitives
(20_memory.md R66 to R68), which process is on turn (47_scheduler_fetch.md R242), the one fault action (60_exceptions.md
R282, R283: the machine takes no exception and returns from none, R287, R288), process creation and program placement. -/

/-- The id of the first process of a group (R6, 10_state.md R31, decision D10; log entry 12). -/
def Sys2Proof.Config.firstPid : Nat := 0

namespace Sys2Proof.Machine

/-- What an instruction answers. -/
abbrev Outcome := Host.Outcome State Fault Refusal

/-! ## The core as a list -/

/-- What an unlisted address reads as: the cell after `Construct`, word 13 and no owner (R42). -/
def Cell.unwritten : Cell := { word := Config.hltWord, owner := none }

/-- The cell at an address. -/
def Memory.read : Memory → Nat → Cell
  | [], _ => Cell.unwritten
  | (b, d) :: rest, a => if a = b then d else Memory.read rest a

/-- Put `c` before `rest` at address `a`, unless it is what an unlisted address reads as. -/
def Memory.cons (a : Nat) (c : Cell) (rest : Memory) : Memory :=
  if c = Cell.unwritten then rest else (a, c) :: rest

/-- Write a cell, keeping the canonical form. -/
def Memory.write : Memory → Nat → Cell → Memory
  | [], a, c => Memory.cons a c []
  | (b, d) :: rest, a, c =>
    if a < b then Memory.cons a c ((b, d) :: rest)
    else if a = b then Memory.cons a c rest
    else (b, d) :: Memory.write rest a c

/-- The canonical form: addresses strictly rise from `lo` on, and no entry is `Cell.unwritten`. -/
def Memory.wfFrom : Nat → Memory → Bool
  | _, [] => true
  | lo, (a, c) :: rest => decide (lo ≤ a) && decide (c ≠ Cell.unwritten) && Memory.wfFrom (a + 1) rest

/-- The canonical form of the core. -/
def Memory.wf (m : Memory) : Bool := Memory.wfFrom 0 m

/-! ## The memory primitives -/

/-- `InRange(a)`: `0 <= a < N` (R66). -/
def State.inRange (s : State) (a : Int) : Bool := decide (0 ≤ a) && decide (a < (s.coreSize : Int))

/-- The cell at an address; only used with `inRange`. -/
def State.cellAt (s : State) (a : Int) : Cell := Memory.read s.core a.toNat

/-- `MemRead(a)`: the word of a cell, whatever its tag (R67, decision D25; log entry 26). -/
def State.memRead (s : State) (a : Int) : Word := (s.cellAt a).word

/-- `MemWrite(a, v, o)`: the cell takes the word and the owner tag, both, always (R68). -/
def State.memWrite (s : State) (a : Int) (v : Word) (o : OwnerTag) : State :=
  { s with core := Memory.write s.core a.toNat { word := v, owner := some o } }

/-- Write a program to consecutive cells from `a` on, ascending, all with one tag; stop at the first address out of
range. Answers whether every word was written (R203, R204, R312). -/
def State.place (s : State) (a : Int) (prog : List Word) (o : OwnerTag) : State × Bool :=
  match prog with
  | [] => (s, true)
  | w :: ws => if s.inRange a then (s.memWrite a w o).place (a + 1) ws o else (s, false)

/-! ## Groups and processes -/

/-- `group(m, k)`: the group of player `k` (R35). -/
def State.groupOf (s : State) (k : Int) : Option Group := s.groups.find? (fun g => decide ((g.player : Int) = k))

/-- The process at an index of a group's list. -/
def State.procAt (s : State) (gi pi : Nat) : Option Process := (s.groups[gi]?).bind (fun g => g.procs[pi]?)

/-- Change the group at an index. -/
def State.modifyGroup (s : State) (gi : Nat) (f : Group → Group) : State := { s with groups := s.groups.modify gi f }

/-- Replace the process at an index of a group's list. -/
def Group.setProc (g : Group) (pi : Nat) (p : Process) : Group := { g with procs := g.procs.set pi p }

/-- Append a process at the end of a group's list (R203, R312). -/
def Group.addProc (g : Group) (p : Process) : Group := { g with procs := g.procs ++ [p] }

/-- Replace one process of the machine. -/
def State.setProc (s : State) (gi pi : Nat) (p : Process) : State := s.modifyGroup gi (fun g => g.setProc pi p)

/-- Append a process to a group of the machine. -/
def State.addProc (s : State) (gi : Nat) (p : Process) : State := s.modifyGroup gi (fun g => g.addProc p)

/-- The id of the next process created in a group: its index, counted from `FIRST_PID` (R31, decision D10; log
entry 12). -/
def Group.nextPid (g : Group) : Nat := Config.firstPid + g.procs.length

/-- A new process: registers, `HI` and `LO` zero, alive (R45, R46, decision D9; log entry 10). -/
def Process.fresh (pc : Word) (id player : Nat) (prog : List Word) : Process :=
  { x := Vector.replicate 32 0#32, pc := pc, hi := 0#32, lo := 0#32, alive := true, id := id, player := player,
    prog := prog }

/-- A new group (R44, decision D19; log entry 11). -/
def Group.fresh (player : Nat) : Group := { player := player, procs := [], pcur := 0, last := none }

/-! ## The process on turn -/

/-- The process that executes in the next tick: its place, its group and its record, as they stand before the tick. -/
structure Running where
  group : Nat
  proc : Nat
  g : Group
  p : Process
deriving DecidableEq, Repr

/-- Picking the process of a group: the first live one from the cursor on, wrapping once (R242). -/
def Group.pick (g : Group) : Option Nat :=
  ((List.range g.procs.length).map (fun k => (g.pcur + k) % g.procs.length)).find? g.aliveAt

/-- The process on turn: the pick of the group at the machine's cursor; none if that group has no live process or there
is no group (R240, R242, R243). -/
def State.running (s : State) : Option Running :=
  match s.groups[s.gcur]? with
  | none => none
  | some g =>
    match g.pick with
    | none => none
    | some i =>
      match g.procs[i]? with
      | none => none
      | some p => some { group := s.gcur, proc := i, g := g, p := p }

/-- An instruction's meaning, given the process that executes it. With no process on turn no instruction executes and
nothing changes (R243; log entry 6). -/
def State.withRunning (s : State) (f : Running → Outcome) : Outcome :=
  match s.running with
  | none => .next s
  | some r => f r

/-- An instruction that changes the executing process only. -/
def State.updateRunning (s : State) (f : Process → Process) : Outcome :=
  s.withRunning (fun r => .next (s.setProc r.group r.proc (f r.p)))

/-- The one fault action, and the effect of a halt: the executing process is killed and its `pc` advances; nothing is
saved, nothing else changes (R281, R282, R283, 46_process_system.md R200). `s` may hold cells the instruction had
written before. -/
def State.killRunning (s : State) (r : Running) : State := s.setProc r.group r.proc r.p.kill.advance

/-! ## After the instruction -/

/-- The group records the process that ran and moves its cursor past it, wrapping at the list's length after execution
(R248, decision D11; log entry 19). -/
def Group.served (g : Group) (i : Nat) : Group := { g with last := some i, pcur := (i + 1) % g.procs.length }

/-- The machine's cursor moves to the next group, wrapping (R240). -/
def State.rotate (s : State) : State := { s with gcur := (s.gcur + 1) % s.groups.length }

/-- The end of a tick in which a process ran. -/
def State.afterRun (s : State) (r : Running) : State := (s.modifyGroup r.group (fun g => g.served r.proc)).rotate

end Sys2Proof.Machine
end

