-- ==== Sys2Proof/Machine/Loader.lean ====
section
/-! DEFINITION. How one instruction is put where the next tick fetches: the load that 70_reset_and_hazards.md R312 gives
the host, made with a known placement (log entry 8). -/

namespace Sys2Proof.Machine

/-- The word of an opcode-table instruction given by its bits; bits above the table's are 0 (30_encoding.md R90). -/
def fetchWord (nbits w : Nat) : Word := BitVec.ofNat 32 (w % 2 ^ min nbits 32)

/-- `s` with a group on turn: the group of player 1 is created if there is none (R312), and a cursor that names no group
is set to the first. -/
def State.withGroupOnTurn (s : State) : State :=
  match s.groups with
  | [] => { s with groups := [Group.fresh 1], gcur := 0 }
  | _ :: _ => if s.gcur < s.groups.length then s else { s with gcur := 0 }

/-- `s` with a process on turn: if the group on turn has no live process, a process at address 0 is created in it
with the one-word program `w` (R45, R312); otherwise a `pc` that names no cell is set to 0. -/
def State.readyToRun (s : State) (w : Word) : State :=
  let t := s.withGroupOnTurn
  match t.running with
  | none =>
    match t.groups[t.gcur]? with
    | none => t
    | some g => t.addProc t.gcur (Process.fresh 0#32 g.nextPid g.player [w])
  | some r => if t.inRange (sval r.p.pc) then t else t.setProc r.group r.proc (r.p.setPc 0#32)

/-- `s` with a word stored in the cell that the process on turn fetches, tagged as its own (R68, R312). -/
def State.storeAtFetch (s : State) (w : Word) : State :=
  match s.running with
  | none => s
  | some r => s.memWrite (sval r.p.pc) w ⟨r.g.player, r.p.id⟩

end Sys2Proof.Machine
end

