-- ==== Sys2Proof/WellFormed.lean ====
section
/-! DEFINITION. Which instruction terms are well formed: every operand lies in the range its field encodes
(30_encoding.md R96, R114). Register numbers are 0 to 31 by their type. -/

namespace Sys2Proof

/-- The signed 16-bit range −32768..32767 (R96, R114). -/
def signed16 (z : Int) : Bool := decide (-32768 ≤ z) && decide (z ≤ 32767)

/-- The unsigned 16-bit range 0..65535 (R96, R114). -/
def unsigned16 (n : Nat) : Bool := decide (n ≤ 65535)

/-- The signed 26-bit range −33554432..33554431 (R96, R114). -/
def signed26 (z : Int) : Bool := decide (-33554432 ≤ z) && decide (z ≤ 33554431)

/-- An instruction is well formed when its immediate fits the field of its format (R96). -/
def Instr.wellFormed : Instr → Bool
  | .sllv _ _ _ => true
  | .srlv _ _ _ => true
  | .jr _ => true
  | .syscall => true
  | .hlt => true
  | .mult _ _ => true
  | .divu _ _ => true
  | .sub _ _ _ => true
  | .xor _ _ _ => true
  | .slt _ _ _ => true
  | .blez _ imm => signed16 imm
  | .bgez _ imm => signed16 imm
  | .j target => signed26 target
  | .bne _ _ imm => signed16 imm
  | .slti _ _ imm => signed16 imm
  | .andi _ _ imm => unsigned16 imm
  | .frk _ => true
  | .opn => true
  | .rfrk => true
  | .rsw => true
  | .lw _ _ imm => signed16 imm
  | .sw _ _ imm => signed16 imm

end Sys2Proof
end

