-- ==== Sys2Proof/Decode.lean ====
section
/-! DEFINITION. The instruction decoder (30_encoding.md): bit-unpacking of the R, I and J formats, the dispatch key, the
mnemonic table's conditions, `Resolve`, and the encoder written from the same tables. A word is one cell's 32-bit value;
the machine has no bytes and no byte order (20_memory.md R62), so the decoder reads words. -/

namespace Sys2Proof

/-- `w[hi:lo]`: bits `hi` down to `lo` as an unsigned integer (00_scope.md R7). -/
def bits (w : Word) (hi lo : Nat) : Nat := w.toNat / 2 ^ lo % 2 ^ (hi - lo + 1)

/-- `sext_n(v)`: an `n`-bit field read as signed (00_scope.md R8). -/
def sext (n v : Nat) : Int := if v < 2 ^ (n - 1) then (v : Int) else (v : Int) - 2 ^ n

/-- The `opcode` field `w[31:26]` (R91 to R93). -/
def opcodeField (w : Word) : Nat := bits w 31 26

/-- The `rs` field `w[25:21]` (R91, R92). -/
def rsField (w : Word) : Reg := Fin.ofNat 32 (bits w 25 21)

/-- The `rt` field `w[20:16]` (R91, R92). -/
def rtField (w : Word) : Reg := Fin.ofNat 32 (bits w 20 16)

/-- The `rd` field `w[15:11]` (R91). -/
def rdField (w : Word) : Reg := Fin.ofNat 32 (bits w 15 11)

/-- The `shamt` field `w[10:6]` (R91). No instruction uses it (R111). -/
def shamtField (w : Word) : Nat := bits w 10 6

/-- The `funct` field `w[5:0]` (R91). -/
def functField (w : Word) : Nat := bits w 5 0

/-- The `imm16` field `w[15:0]`, zero-extended (R92, R96). -/
def zimmField (w : Word) : Nat := bits w 15 0

/-- The `imm16` field `w[15:0]`, sign-extended (R92, R96). -/
def simmField (w : Word) : Int := sext 16 (bits w 15 0)

/-- The `target26` field `w[25:0]`, sign-extended (R93, R96). -/
def targetField (w : Word) : Int := sext 26 (bits w 25 0)

/-- The dispatch key of a word (R97). -/
def key (w : Word) : Nat :=
  if opcodeField w = 0 then functField w
  else if opcodeField w = 1 then ((opcodeField w <<< 10) ||| bits w 20 16) <<< 16
  else opcodeField w <<< 26

/-- The key of a table entry, by the same three-way derivation (R98). -/
def entryKey (e : TableEntry) : Nat :=
  if e.opcode = 0 then e.second
  else if e.opcode = 1 then ((1 <<< 10) ||| e.second) <<< 16
  else e.opcode <<< 26

/-- The range check on one entry and the conditions W3 and W5 of R99. -/
def entryOk (e : TableEntry) : Bool :=
  decide (e.opcode ≤ 63) && decide (e.second ≤ 63)
    && (decide (e.opcode ≠ 1) || decide (e.second ≤ 31))
    && (match e.name.format with
        | .R => decide (e.opcode = 0)
        | .I => decide (1 ≤ e.opcode)
        | .J => decide (1 ≤ e.opcode))
    && (decide (e.opcode ≠ 1) || e.name.rtFree)

/-- W1 and W4 of R99, with the conditions on single entries. W2 (only the 22 names) holds by the type of `name`; a raw
table with another name is refused by `readTable`. -/
def tableOk (t : List TableEntry) : Bool :=
  t.all entryOk
    && decide ((t.map entryKey).Nodup)
    && decide ((t.map TableEntry.name).Nodup)
    && decide (⟨.hlt, 0, 13⟩ ∈ t)

/-- The instruction that a word is, once its mnemonic is known: the operands are the fields of its own format
(R100, R111), with the extension of R96. -/
def instrOf (m : Mnemonic) (w : Word) : Instr :=
  match m with
  | .sllv => .sllv (rdField w) (rtField w) (rsField w)
  | .srlv => .srlv (rdField w) (rtField w) (rsField w)
  | .jr => .jr (rsField w)
  | .syscall => .syscall
  | .hlt => .hlt
  | .mult => .mult (rsField w) (rtField w)
  | .divu => .divu (rsField w) (rtField w)
  | .sub => .sub (rdField w) (rsField w) (rtField w)
  | .xor => .xor (rdField w) (rsField w) (rtField w)
  | .slt => .slt (rdField w) (rsField w) (rtField w)
  | .blez => .blez (rsField w) (simmField w)
  | .bgez => .bgez (rsField w) (simmField w)
  | .j => .j (targetField w)
  | .bne => .bne (rsField w) (rtField w) (simmField w)
  | .slti => .slti (rtField w) (rsField w) (simmField w)
  | .andi => .andi (rtField w) (rsField w) (zimmField w)
  | .frk => .frk (rtField w)
  | .opn => .opn
  | .rfrk => .rfrk
  | .rsw => .rsw
  | .lw => .lw (rtField w) (rsField w) (simmField w)
  | .sw => .sw (rtField w) (rsField w) (simmField w)

/-- The entry of a table that has a given key (R100). -/
def entryOfKey (t : List TableEntry) (k : Nat) : Option TableEntry := t.find? (fun e => entryKey e == k)

/-- `Resolve(w)` under a table: total on all words; none is absence, "no such instruction" (R100, R104). -/
def resolveIn (t : List TableEntry) (w : Word) : Option Instr :=
  (entryOfKey t (key w)).map (fun e => instrOf e.name w)

/-- The default mnemonic table (30_encoding.md R101). Only `hlt` is the source's number; the others are the spec's own
decision D1, most of them MIPS I numbers from general knowledge (PRESUMED, log entry 2). -/
def Config.mnemonicTable : List TableEntry :=
  [⟨.sllv, 0, 4⟩, ⟨.srlv, 0, 6⟩, ⟨.jr, 0, 8⟩, ⟨.syscall, 0, 12⟩, ⟨.hlt, 0, 13⟩, ⟨.mult, 0, 24⟩, ⟨.divu, 0, 27⟩,
   ⟨.sub, 0, 34⟩, ⟨.xor, 0, 38⟩, ⟨.slt, 0, 42⟩, ⟨.blez, 1, 0⟩, ⟨.bgez, 1, 1⟩, ⟨.j, 2, 0⟩, ⟨.bne, 5, 0⟩,
   ⟨.slti, 10, 0⟩, ⟨.andi, 12, 0⟩, ⟨.frk, 28, 0⟩, ⟨.opn, 29, 0⟩, ⟨.rfrk, 30, 0⟩, ⟨.rsw, 31, 0⟩, ⟨.lw, 35, 0⟩,
   ⟨.sw, 43, 0⟩]

/-- `Resolve(w)` under the default table (R100, R101). -/
def decode (w : Word) : Option Instr := resolveIn Config.mnemonicTable w

/-- The instruction read from an instruction of the opcode table whose bits are `w`, bit 0 the least significant. The
table's rows are 32 bits; a shorter `nbits` leaves the bits above it 0, a longer one is no instruction (R90). -/
def decodeTableWord (nbits w : Nat) : Option Instr :=
  if nbits ≤ 32 then decode (BitVec.ofNat 32 (w % 2 ^ nbits)) else none

/-! ## The encoder (R94, R115) -/

/-- R-format packing (R94). -/
def packR (opcode rs rt rd shamt funct : Nat) : Word :=
  BitVec.ofNat 32 (opcode * 2 ^ 26 + rs * 2 ^ 21 + rt * 2 ^ 16 + rd * 2 ^ 11 + shamt * 2 ^ 6 + funct)

/-- I-format packing (R94). -/
def packI (opcode rs rt imm16 : Nat) : Word :=
  BitVec.ofNat 32 (opcode * 2 ^ 26 + rs * 2 ^ 21 + rt * 2 ^ 16 + imm16)

/-- J-format packing (R94). -/
def packJ (opcode target26 : Nat) : Word := BitVec.ofNat 32 (opcode * 2 ^ 26 + target26)

/-- `imm mod 65536`, the immediate field of an operand value (R115). -/
def immBits (z : Int) : Nat := (z % 65536).toNat

/-- `target mod 2^26`, the target field of an operand value (R115). -/
def targetBits (z : Int) : Nat := (z % 67108864).toNat

/-- The `rt` field of an instruction whose `rt` is no operand: the table's selector at opcode 1, else 0 (R115). -/
def rtSelector (e : TableEntry) : Nat := if e.opcode = 1 then e.second else 0

/-- The canonical word of an instruction under its table entry: unused fields are zero (R94, R103, R115). -/
def encodeEntry (e : TableEntry) : Instr → Word
  | .sllv rd rt rs => packR e.opcode rs rt rd 0 e.second
  | .srlv rd rt rs => packR e.opcode rs rt rd 0 e.second
  | .jr rs => packR e.opcode rs 0 0 0 e.second
  | .syscall => packR e.opcode 0 0 0 0 e.second
  | .hlt => packR e.opcode 0 0 0 0 e.second
  | .mult rs rt => packR e.opcode rs rt 0 0 e.second
  | .divu rs rt => packR e.opcode rs rt 0 0 e.second
  | .sub rd rs rt => packR e.opcode rs rt rd 0 e.second
  | .xor rd rs rt => packR e.opcode rs rt rd 0 e.second
  | .slt rd rs rt => packR e.opcode rs rt rd 0 e.second
  | .blez rs imm => packI e.opcode rs (rtSelector e) (immBits imm)
  | .bgez rs imm => packI e.opcode rs (rtSelector e) (immBits imm)
  | .j target => packJ e.opcode (targetBits target)
  | .bne rs rt imm => packI e.opcode rs rt (immBits imm)
  | .slti rt rs imm => packI e.opcode rs rt (immBits imm)
  | .andi rt rs imm => packI e.opcode rs rt (imm % 65536)
  | .frk rt => packI e.opcode 0 rt 0
  | .opn => packI e.opcode 0 (rtSelector e) 0
  | .rfrk => packI e.opcode 0 (rtSelector e) 0
  | .rsw => packI e.opcode 0 (rtSelector e) 0
  | .lw rt rs imm => packI e.opcode rs rt (immBits imm)
  | .sw rt rs imm => packI e.opcode rs rt (immBits imm)

/-- The entry of a table with a given name (R98: the map is bidirectional). -/
def entryOfName (t : List TableEntry) (m : Mnemonic) : Option TableEntry := t.find? (fun e => e.name == m)

/-- The word of an instruction under a table; none if the table has no entry of its name. -/
def encodeIn (t : List TableEntry) (i : Instr) : Option Word :=
  (entryOfName t i.mnemonic).map (fun e => encodeEntry e i)

/-- The word of an instruction under the default table. -/
def encode (i : Instr) : Option Word := encodeIn Config.mnemonicTable i

/-! ## The mnemonic table as loaded (R98, R99, R119) -/

/-- The text of a mnemonic (R2, R98: lowercase). -/
def mnemonicText : Mnemonic → String
  | .sllv => "sllv"
  | .srlv => "srlv"
  | .jr => "jr"
  | .syscall => "syscall"
  | .hlt => "hlt"
  | .mult => "mult"
  | .divu => "divu"
  | .sub => "sub"
  | .xor => "xor"
  | .slt => "slt"
  | .blez => "blez"
  | .bgez => "bgez"
  | .j => "j"
  | .bne => "bne"
  | .slti => "slti"
  | .andi => "andi"
  | .frk => "frk"
  | .opn => "open"
  | .rfrk => "rfrk"
  | .rsw => "rsw"
  | .lw => "lw"
  | .sw => "sw"

/-- All mnemonics, in the order of the opcode table. -/
def allMnemonics : List Mnemonic :=
  [.sllv, .srlv, .jr, .syscall, .hlt, .mult, .divu, .sub, .xor, .slt, .blez, .bgez, .j, .bne, .slti, .andi, .frk,
   .opn, .rfrk, .rsw, .lw, .sw]

/-- The mnemonic with a given text, none for any other name (W2 of R99). -/
def mnemonicOfText (s : String) : Option Mnemonic := allMnemonics.find? (fun m => mnemonicText m == s)

/-- Why a raw table is refused, with the value or entry at fault. A place counts the tokens of the resource from 0, three
to an entry (R119). -/
inductive TableError where
  /-- An opcode or second value outside 0 to 63: the loader's range error (R98, R119, 60_exceptions.md R286). -/
  | range (value : Int) (place : Nat)
  /-- A name that is not one of the 22 mnemonics (W2). -/
  | name (text : String) (place : Nat)
  /-- An entry that breaks W3 or W5. -/
  | entry (e : TableEntry)
  /-- An entry whose key or name a later entry has again (W1). -/
  | repeated (e : TableEntry)
  /-- No entry `(hlt, 0, 13)` (W4). -/
  | noHlt
deriving DecidableEq, Repr

/-- An opcode or second value of a raw table: 0 to 63, else the range error (R98, R119). -/
def tableValue (value : Int) (place : Nat) : Except TableError Nat :=
  if 0 ≤ value ∧ value ≤ 63 then .ok value.toNat else .error (.range value place)

/-- The entries of a raw table `name opcode second` (R119), from a place on. The first entry at fault is reported, its
name before its values (log entry 36). -/
def readEntries : Nat → List (String × Int × Int) → Except TableError (List TableEntry)
  | _, [] => .ok []
  | place, (text, op, sec) :: rest => do
    let m ← (mnemonicOfText text).elim (.error (.name text place)) .ok
    let opcode ← tableValue op (place + 1)
    let second ← tableValue sec (place + 2)
    let es ← readEntries (place + 3) rest
    .ok (⟨m, opcode, second⟩ :: es)

/-- The first entry of a table whose key or name a later entry has again (W1). -/
def repeatedEntry : List TableEntry → Option TableEntry
  | [] => none
  | e :: rest =>
    if rest.any (fun e' => entryKey e' == entryKey e || e'.name == e.name) then some e else repeatedEntry rest

/-- What keeps a table from being well formed, none if nothing does (R99). -/
def tableDefect (t : List TableEntry) : Option TableError :=
  match t.find? (fun e => !entryOk e) with
  | some e => some (.entry e)
  | none =>
    match repeatedEntry t with
    | some e => some (.repeated e)
    | none => if ⟨.hlt, 0, 13⟩ ∈ t then none else some .noHlt

/-- A raw table is admitted only if it is in range and well formed (R99, U7, U18); otherwise it is refused, with the
reason. -/
def readTable (raw : List (String × Int × Int)) : Except TableError (List TableEntry) := do
  let t ← readEntries 0 raw
  (tableDefect t).elim (.ok t) .error

/-- The table that a raw table stands for, none if it is refused. -/
def tableOfRaw (raw : List (String × Int × Int)) : Option (List TableEntry) := (readTable raw).toOption

end Sys2Proof
end

