-- ==== Sys2Proof/Machine/AluImmediate.lean ====
section
/-! DEFINITION. Immediate arithmetic and compare: `andi`, `slti` (41_alu_immediate.md). -/

namespace Sys2Proof.Machine

/-- `andi` (R140). -/
def execAndi (rt rs : Reg) (imm : Nat) (s : State) : Outcome :=
  s.updateRunning (fun p => (p.write rt (p.read rs &&& zextWord imm)).advance)

/-- `slti` (R141): a signed comparison. -/
def execSlti (rt rs : Reg) (imm : Int) (s : State) : Outcome :=
  s.updateRunning (fun p => (p.write rt (boolWord (decide (sval (p.read rs) < imm)))).advance)

end Sys2Proof.Machine
end

