-- ==== Sys2Proof/Machine/AluRegister.lean ====
section
/-! DEFINITION. Register arithmetic, logic, compare and shifts: `sub`, `xor`, `slt`, `sllv`, `srlv` (44_alu_register.md).
All modulo 2^32, no overflow detection (R175, decision D3; log entry 32). -/

namespace Sys2Proof.Machine

/-- `sub` (R177): `w32(u(x[rs]) - u(x[rt]))`. -/
def execSub (rd rs rt : Reg) (s : State) : Outcome :=
  s.updateRunning (fun p => (p.write rd (w32 ((uval (p.read rs) : Int) - (uval (p.read rt) : Int)))).advance)

/-- `xor` (R178). -/
def execXor (rd rs rt : Reg) (s : State) : Outcome :=
  s.updateRunning (fun p => (p.write rd (p.read rs ^^^ p.read rt)).advance)

/-- `slt` (R179): signed. -/
def execSlt (rd rs rt : Reg) (s : State) : Outcome :=
  s.updateRunning (fun p => (p.write rd (boolWord (decide (sval (p.read rs) < sval (p.read rt))))).advance)

/-- `sllv` (R181): `w32(u(x[rt]) * 2^sa)`. -/
def execSllv (rd rt rs : Reg) (s : State) : Outcome :=
  s.updateRunning (fun p =>
    (p.write rd (w32 ((uval (p.read rt) * 2 ^ shiftAmount (p.read rs) : Nat) : Int))).advance)

/-- `srlv` (R182): `floor(u(x[rt]) / 2^sa)`. -/
def execSrlv (rd rt rs : Reg) (s : State) : Outcome :=
  s.updateRunning (fun p =>
    (p.write rd (w32 ((uval (p.read rt) / 2 ^ shiftAmount (p.read rs) : Nat) : Int))).advance)

end Sys2Proof.Machine
end

