-- ==== Sys2Proof/Machine/BranchJump.lean ====
section
/-! DEFINITION. Control transfer: `bgez`, `blez`, `bne`, `j`, `jr` (42_branch_jump.md). Targets are not checked (R157). -/

namespace Sys2Proof.Machine

/-- A conditional branch: both paths assign `pc` (R150, R246). -/
def Process.branch (p : Process) (taken : Bool) (imm : Int) : Process := if taken then p.jumpBy imm else p.jumpBy 1

/-- `bgez` (R151): signed. -/
def execBgez (rs : Reg) (imm : Int) (s : State) : Outcome :=
  s.updateRunning (fun p => p.branch (decide (sval (p.read rs) ≥ 0)) imm)

/-- `blez` (R152): signed. -/
def execBlez (rs : Reg) (imm : Int) (s : State) : Outcome :=
  s.updateRunning (fun p => p.branch (decide (sval (p.read rs) ≤ 0)) imm)

/-- `bne` (R153). -/
def execBne (rs rt : Reg) (imm : Int) (s : State) : Outcome :=
  s.updateRunning (fun p => p.branch (decide (p.read rs ≠ p.read rt)) imm)

/-- `j` (R154): relative to its own address, no fall-through increment. -/
def execJ (target : Int) (s : State) : Outcome := s.updateRunning (fun p => p.jumpBy target)

/-- `jr` (R155): absolute, no increment. -/
def execJr (rs : Reg) (s : State) : Outcome := s.updateRunning (fun p => p.setPc (p.read rs))

end Sys2Proof.Machine
end

