-- ==== Sys2Proof/Machine/LoadStore.lean ====
section
/-! DEFINITION. Load and store: `lw`, `sw` (43_load_store.md). -/

namespace Sys2Proof.Machine

/-- `lw` (R165): out of range, the process is killed and no register is written. -/
def execLw (rt rs : Reg) (imm : Int) (s : State) : Outcome :=
  s.withRunning (fun r =>
    let ea := effectiveAddress r.p rs imm
    if s.inRange ea then .next (s.setProc r.group r.proc (r.p.write rt (s.memRead ea)).advance)
    else .next (s.killRunning r))

/-- `sw` (R166): the word and the storing process's tag; out of range, the process is killed and no cell is written. -/
def execSw (rt rs : Reg) (imm : Int) (s : State) : Outcome :=
  s.withRunning (fun r =>
    let ea := effectiveAddress r.p rs imm
    if s.inRange ea then
      .next ((s.memWrite ea (r.p.read rt) ⟨r.p.player, r.p.id⟩).setProc r.group r.proc r.p.advance)
    else .next (s.killRunning r))

end Sys2Proof.Machine
end

