-- ==== Sys2Proof/Machine/MulDiv.lean ====
section
/-! DEFINITION. Multiply and divide: `mult`, `divu` (45_muldiv.md). They write `HI` and `LO` only. -/

namespace Sys2Proof.Machine

/-- The 64-bit pattern of the signed product (R190). -/
def product64 (a b : Word) : Nat := ((sval a * sval b) % 2 ^ 64).toNat

/-- `mult` (R190): `HI` is the high half and `LO` the low half of the 64-bit product. -/
def execMult (rs rt : Reg) (s : State) : Outcome :=
  s.updateRunning (fun p =>
    let p64 := product64 (p.read rs) (p.read rt)
    (p.setHiLo (w32 ((p64 / 2 ^ 32 : Nat) : Int)) (w32 ((p64 % 2 ^ 32 : Nat) : Int))).advance)

/-- The results `(HI, LO)` of `divu` (R191): the magnitudes of remainder and quotient of the signed operands; both 0
for a zero divisor. A quotient of `2^31` keeps its pattern (decision D20; log entry 33). -/
def divMagnitudes (a b : Word) : Word × Word :=
  if b = 0#32 then (0#32, 0#32)
  else (w32 (((sval a).natAbs % (sval b).natAbs : Nat) : Int), w32 (((sval a).natAbs / (sval b).natAbs : Nat) : Int))

/-- `divu` (R191). -/
def execDivu (rs rt : Reg) (s : State) : Outcome :=
  s.updateRunning (fun p =>
    let q := divMagnitudes (p.read rs) (p.read rt)
    (p.setHiLo q.1 q.2).advance)

end Sys2Proof.Machine
end

