-- ==== Sys2Proof/Machine/ProcessSystem.lean ====
section
/-! DEFINITION. Process and system instructions: `hlt`, `frk`, `syscall`, `open`, `rfrk`, `rsw` (46_process_system.md).
None sets `pc`: each advances it by one, also when it kills (R200). -/

namespace Sys2Proof.Machine

/-- `hlt` (R201): kill the executing process. -/
def execHlt (s : State) : Outcome := s.withRunning (fun r => .next (s.killRunning r))

/-- The child of a fork (R46): a fresh process at the target, with the parent's player and program. -/
def forkChild (r : Running) (a : Word) : Process := Process.fresh a r.g.nextPid r.p.player r.p.prog

/-- `frk` (R203, R204): out of range, the parent is killed; else the child is appended, the parent's program is copied
to the target with the child's tag, and a copy that runs off the end kills the parent, keeping child and written cells
(decision D12; log entry 18). -/
def execFrk (rt : Reg) (s : State) : Outcome :=
  s.withRunning (fun r =>
    let target := r.p.read rt
    if s.inRange (sval target) then
      let child := forkChild r target
      let copied := (s.addProc r.group child).place (sval target) r.p.prog ⟨r.p.player, child.id⟩
      if copied.2 then .next (copied.1.setProc r.group r.proc r.p.advance)
      else .next (copied.1.killRunning r)
    else .next (s.killRunning r))

/-- The thirteen services of `syscall` (R208). -/
inductive Service where
  | halt | random | coreSize | networkSize | ownId | ownPlayer | runnableGroups | players | score
  | remoteA | remoteB | runnableProcesses | memorySize
deriving DecidableEq, Repr

/-- The services in the order of the source's list, numbered from 0 (R208, decision D14; log entry 20). -/
def services : List Service :=
  [.halt, .random, .coreSize, .networkSize, .ownId, .ownPlayer, .runnableGroups, .players, .score, .remoteA, .remoteB,
   .runnableProcesses, .memorySize]

/-- The service of a call id, none outside 0 to 12 (R208, R222). -/
def serviceOf (id : Int) : Option Service := if 0 ≤ id then services[id.toNat]? else none

/-- A service that has a result: it is written to register 1 as a word, and `pc` advances (R200, R208; log entry 17). -/
def State.answer (s : State) (r : Running) (v : Int) : State :=
  s.setProc r.group r.proc (r.p.write 1 (w32 v)).advance

/-- A draw in `[0, N)` from the free values (R210, R12; log entry 4). -/
def State.draw (s : State) : Nat := uval (Config.freeDraw s.draws) % s.coreSize

/-- One more draw has been taken (log entry 4). -/
def State.drawn (s : State) : State := { s with draws := s.draws + 1 }

/-- One service, executed by the process on turn (R209 to R221). -/
def runService (v : Service) (s : State) (r : Running) : Outcome :=
  match v with
  | .halt => .next (s.killRunning r)
  | .random => .next (s.drawn.answer r s.draw)
  | .coreSize => .next (s.answer r s.coreSize)
  | .networkSize => .next (s.answer r 1)
  | .ownId => .next (s.answer r r.p.id)
  | .ownPlayer => .next (s.answer r r.p.player)
  | .runnableGroups => .next (s.answer r s.runnableGroups)
  | .players => .next (s.answer r s.players)
  | .score =>
    match s.groupOf (sval (r.p.read 2)) with
    | some g => .next (s.answer r (uval (score s.coreSize s.core s.groups s.gcur g)))
    | none => .refused (.noSuchGroup 8 (sval (r.p.read 2)))
  | .remoteA => .next (s.answer r 0)
  | .remoteB => .next (s.answer r 0)
  | .runnableProcesses =>
    match s.groupOf (sval (r.p.read 2)) with
    | some g => .next (s.answer r g.runnableCount)
    | none => .refused (.noSuchGroup 11 (sval (r.p.read 2)))
  | .memorySize => .next (s.answer r 0)

/-- `syscall` (R208): dispatch on register 1; any other id halts (R222). -/
def execSyscall (s : State) : Outcome :=
  s.withRunning (fun r =>
    match serviceOf (sval (r.p.read 1)) with
    | some v => runService v s r
    | none => .next (s.killRunning r))

/-- `open` (R223): reserved, no operation. -/
def execOpen (s : State) : Outcome := s.updateRunning (fun p => p.advance)

/-- `rfrk` (R224): reserved, no operation. -/
def execRfrk (s : State) : Outcome := s.updateRunning (fun p => p.advance)

/-- `rsw` (R225): reserved, no operation. -/
def execRsw (s : State) : Outcome := s.updateRunning (fun p => p.advance)

end Sys2Proof.Machine
end

