-- ==== Sys2Proof/Machine/Dispatch.lean ====
section
/-! DEFINITION. `exec`: an instruction executed by the process on turn, one arm per constructor (47_scheduler_fetch.md R246). -/

namespace Sys2Proof.Machine

def exec (i : Instr) (s : State) : Host.Outcome State Fault Refusal :=
  match i with
  | .sllv rd rt rs => Sys2Proof.Machine.execSllv rd rt rs s
  | .srlv rd rt rs => Sys2Proof.Machine.execSrlv rd rt rs s
  | .jr rs => Sys2Proof.Machine.execJr rs s
  | .syscall => Sys2Proof.Machine.execSyscall s
  | .hlt => Sys2Proof.Machine.execHlt s
  | .mult rs rt => Sys2Proof.Machine.execMult rs rt s
  | .divu rs rt => Sys2Proof.Machine.execDivu rs rt s
  | .sub rd rs rt => Sys2Proof.Machine.execSub rd rs rt s
  | .xor rd rs rt => Sys2Proof.Machine.execXor rd rs rt s
  | .slt rd rs rt => Sys2Proof.Machine.execSlt rd rs rt s
  | .blez rs imm => Sys2Proof.Machine.execBlez rs imm s
  | .bgez rs imm => Sys2Proof.Machine.execBgez rs imm s
  | .j target => Sys2Proof.Machine.execJ target s
  | .bne rs rt imm => Sys2Proof.Machine.execBne rs rt imm s
  | .slti rt rs imm => Sys2Proof.Machine.execSlti rt rs imm s
  | .andi rt rs imm => Sys2Proof.Machine.execAndi rt rs imm s
  | .frk rt => Sys2Proof.Machine.execFrk rt s
  | .opn => Sys2Proof.Machine.execOpen s
  | .rfrk => Sys2Proof.Machine.execRfrk s
  | .rsw => Sys2Proof.Machine.execRsw s
  | .lw rt rs imm => Sys2Proof.Machine.execLw rt rs imm s
  | .sw rt rs imm => Sys2Proof.Machine.execSw rt rs imm s

end Sys2Proof.Machine
end

