-- ==== Sys2Proof/Machine/Scheduler.lean ====
section
/-! DEFINITION. Instruction fetch with ownership substitution and one tick of the machine (47_scheduler_fetch.md R240 to
R249). The cycle, the verdict and `Run` are in Machine/Transactions.lean. -/

/-- The default parameters: the table of R101 and the policy `fault` (R6, decision D2; log entries 2 and 3). -/
def Sys2Proof.Config.default : Sys2Proof.Config := { table := Sys2Proof.Config.mnemonicTable, unknownPolicy := .fault }

namespace Sys2Proof.Machine

/-- Is a cell owned by another group than the one of player `k`? Player numbers are compared by value; an unowned cell
is not foreign (R244, R259, decisions D13, D23; log entry 25). -/
def Cell.foreignTo (c : Cell) (k : Nat) : Bool :=
  match c.owner with
  | some o => decide (o.player ≠ k)
  | none => false

/-- `Fetch(m, g, p)`: the stored word, or the forced-halt word for a `pc` out of range or a foreign cell (R244). -/
def fetch (s : State) (g : Group) (p : Process) : Word :=
  if s.inRange (sval p.pc) then
    if (s.cellAt (sval p.pc)).foreignTo g.player then Config.hltWord else s.memRead (sval p.pc)
  else Config.hltWord

/-- The end of a tick: what an instruction's outcome becomes (R248, R249). -/
def finishTick (r : Running) : Outcome → Outcome
  | .next t => .next (t.afterRun r)
  | .fault f => .fault f
  | .refused f => .refused f

/-- A fetched word that resolves to no instruction (R247, decision D2; log entry 3). -/
def unknownWord (policy : UnknownPolicy) (w : Word) (s : State) (r : Running) : Outcome :=
  match policy with
  | .fault => .fault (.unknownInstruction w (sval r.p.pc))
  | .kill => .next (s.killRunning r)

/-- The instruction of a tick: fetch, resolve, execute (R244 to R247). -/
def runTurn (cfg : Config) (s : State) (r : Running) : Outcome :=
  match resolveIn cfg.table (fetch s r.g r.p) with
  | some i => exec i s
  | none => unknownWord cfg.unknownPolicy (fetch s r.g r.p) s r

/-- `Tick` (R240): nothing without groups (decision D18; log entry 22); otherwise the group on turn runs one instruction
of one process, or none if it has no live process (R243: its own cursor then stays, the spec's reading; log entry 39), and
the cursor moves. -/
def tick (cfg : Config) (s : State) : Outcome :=
  if s.groups = [] then .next s
  else
    match s.running with
    | none => .next s.rotate
    | some r => finishTick r (runTurn cfg s r)

end Sys2Proof.Machine
end

