-- ==== Sys2Proof/Machine/Step.lean ====
section
/-! DEFINITION. The machine's step, one `Tick` under the default parameters, and the host's placement of one instruction
where the next step fetches. -/

namespace Sys2Proof.Machine

/-- One step: one `Tick` (47_scheduler_fetch.md R240) under the default parameters (00_scope.md R6). -/
def step (s : State) : Host.Outcome State Fault Refusal := tick Config.default s

/-- `s` with an instruction's word stored where the next step fetches. A program is loaded from outside the machine
(70_reset_and_hazards.md R312); this stands for that load (log entry 8). -/
def State.withFetchWord (s : State) (nbits w : Nat) : State :=
  (s.readyToRun (fetchWord nbits w)).storeAtFetch (fetchWord nbits w)

end Sys2Proof.Machine
end

