-- ==== Sys2Proof/Machine/HostError.lean ====
section
/-! DEFINITION. The errors that the host's transactions, the table loader and the assembler report, "with enough detail to
identify the bad line/token" (60_exceptions.md R286). None is a machine event, and none leaves a state. -/

namespace Sys2Proof.Machine

/-- A token (30_encoding.md R113): punctuation stays on registers, a parenthesis is its own token, commas are not tokens.
A token that is neither a register, a number nor a parenthesis is a word with its text, the empty token with none. -/
inductive Token where
  | word (text : String)
  | reg (n : Int)
  | num (z : Int)
  | lparen
  | rparen
deriving DecidableEq, Repr

/-- A token and its place in the input, counted from 0. -/
abbrev PlacedToken := Token × Nat

/-- The errors of the host's transactions and of the assembler (R286; their names are the model's, log entry 36). -/
inductive HostError where
  /-- `Construct` with a size outside 1 to 65535 (R311). -/
  | badCoreSize
  /-- `Load` with a player outside 1 to 9 (R317). -/
  | badPlayer
  /-- `Load` of an empty program (R317). -/
  | emptyProgram
  /-- `ReadCell` of an address outside the core (R72). -/
  | accessFault
  /-- A query that names no existing group (R256, R257, U9). -/
  | noSuchGroup
  /-- A mnemonic table that is malformed, and why (R99, R286: a resource error). -/
  | badTable (why : TableError)
  /-- Expected punctuation, register, number or mnemonic not found: the offending token, none where the tokens ended
  (R114, R116). -/
  | parse (found : Option PlacedToken)
  /-- A register, immediate or target outside its field, or an opcode or second value of a table outside 0 to 63: the
  offending literal (R114, R119, R286). -/
  | range (literal : PlacedToken)
  /-- Assembly: a mnemonic that names no instruction of the table (R116), "reported distinctly from a range error"
  (R286). -/
  | unknownMnemonic (name : String) (place : Nat)
deriving DecidableEq, Repr

end Sys2Proof.Machine
end

