-- ==== Sys2Proof/Machine/Transactions.lean ====
section
/-! DEFINITION. The host's transactions (00_scope.md R10): `Construct`, `Load`, `Run` with its verdicts, `ReadCell` and the
queries. Each is atomic and stands between two ticks (R11, R79, R258). -/

namespace Sys2Proof.Machine

/-- `Construct(N)`: the reset state for a size of 1 to 65535, refused otherwise (R310, R311). -/
def construct (n : Nat) : Except HostError State :=
  if 1 ≤ n ∧ n ≤ 65535 then .ok (State.ofSize n) else .error .badCoreSize

/-! ## Loading a warrior (70_reset_and_hazards.md) -/

/-- Are the `n` cells from `b` on all unowned? The test is on the tag only (R313). -/
def Memory.unowned (m : Memory) (b n : Nat) : Bool :=
  (List.range n).all (fun i => (Memory.read m (b + i)).owner.isNone)

/-- Is `b` a valid placement of `n` words? They fit below `N` and lie on unowned cells (R313). -/
def State.validPlacement (s : State) (n b : Nat) : Bool :=
  decide (b + n ≤ s.coreSize) && Memory.unowned s.core b n

/-- `ValidPlacements(m, n)`, in rising order (R313). -/
def State.validPlacements (s : State) (n : Nat) : List Nat :=
  (List.range s.coreSize).filter (s.validPlacement n)

/-- What a `Load` gives. -/
inductive LoadResult where
  /-- The warrior is placed (R315). -/
  | loaded (s : State)
  /-- No valid placement exists; a group created for a first load stays, empty (R316). -/
  | insufficientMemory (s : State)
  /-- Arguments the machine refuses (R317). -/
  | refused (e : HostError)
  /-- The address given as the draw is no valid placement: no such draw exists (R314). -/
  | notADraw
deriving DecidableEq, Repr

/-- Locate or create a player's group, at the end of the list (R312). -/
def State.withGroup (s : State) (player : Nat) : State :=
  match s.groupOf player with
  | some _ => s
  | none => { s with groups := s.groups ++ [Group.fresh player] }

/-- The index of a player's group. -/
def State.groupIndex (s : State) (player : Nat) : Nat := s.groups.findIdx (fun g => decide (g.player = player))

/-- The id that a player's next process gets (R31). -/
def State.nextPid (s : State) (player : Nat) : Nat :=
  match s.groups[s.groupIndex player]? with
  | some g => g.nextPid
  | none => Config.firstPid

/-- Create a player's process at `base` and place its program there (R312, R315). -/
def State.enroll (s : State) (player : Nat) (program : List Word) (base : Nat) : State :=
  let id := s.nextPid player
  let q := Process.fresh (BitVec.ofNat 32 base) id player program
  ((s.addProc (s.groupIndex player) q).place base program ⟨player, id⟩).1

/-- `Load(player, program)` with the placement draw `base` as a free input (R312 to R317; log entry 21). -/
def State.load (s : State) (player : Nat) (program : List Word) (base : Nat) : LoadResult :=
  if ¬(1 ≤ player ∧ player ≤ 9) then .refused .badPlayer
  else if program = [] then .refused .emptyProgram
  else if s.validPlacement program.length base then .loaded ((s.withGroup player).enroll player program base)
  else if s.validPlacements program.length = [] then .insufficientMemory (s.withGroup player)
  else .notADraw

/-! ## Queries and `ReadCell` -/

/-- `ReadCell(a)`: word and owner, or an access fault to the caller (R72). -/
def State.readCell (s : State) (a : Int) : Except HostError Cell :=
  if s.inRange a then .ok (s.cellAt a) else .error .accessFault

/-- `CountPlayers` (R254). -/
def State.countPlayers (s : State) : Nat := s.players

/-- `CountRunnableGroups` (R255). -/
def State.countRunnableGroups (s : State) : Nat := s.runnableGroups

/-- `CountRunnable(k)` (R256). -/
def State.countRunnable (s : State) (k : Int) : Except HostError Nat :=
  match s.groupOf k with
  | some g => .ok g.runnableCount
  | none => .error .noSuchGroup

/-- `Score(k)` (R257): the open parameter. -/
def State.scoreOf (s : State) (k : Int) : Except HostError Word :=
  match s.groupOf k with
  | some g => .ok (score s.coreSize s.core s.groups s.gcur g)
  | none => .error .noSuchGroup

/-! ## Cycles and the battle (47_scheduler_fetch.md) -/

/-- The verdict at the end of a cycle (R251). -/
inductive Verdict where
  | draw
  | winner (player : Nat)
  | continuing
deriving DecidableEq, Repr

/-- `Verdict(m)` (R251). -/
def State.verdict (s : State) : Verdict :=
  match s.groups.filter Group.runnable with
  | [] => .draw
  | [g] => .winner g.player
  | _ :: _ :: _ => .continuing

/-- Ticks until the cursor is back at the first group, at most `fuel` of them (R250). -/
def toCycleEnd (cfg : Config) : Nat → State → Outcome
  | 0, s => .next s
  | fuel + 1, s =>
    match tick cfg s with
    | .next t => if t.gcur = 0 then .next t else toCycleEnd cfg fuel t
    | .fault f => .fault f
    | .refused r => .refused r

/-- The cycles of `Run`: a cycle has at most as many ticks as there are groups (R250, R252; log entry 29). -/
def runCycles (cfg : Config) : Nat → State → Host.Outcome (State × Verdict) Fault Refusal
  | 0, s => .next (s, .continuing)
  | n + 1, s =>
    match toCycleEnd cfg s.groups.length s with
    | .next t => if t.verdict = .continuing then runCycles cfg n t else .next (t, t.verdict)
    | .fault f => .fault f
    | .refused r => .refused r

/-- `Run(maxCycles)` (R252): the state it leaves and the verdict; no groups is a draw (decision D18). -/
def run (cfg : Config) (maxCycles : Nat) (s : State) : Host.Outcome (State × Verdict) Fault Refusal :=
  if s.groups = [] then .next (s, .draw) else runCycles cfg maxCycles s

end Sys2Proof.Machine
end

