-- ==== Sys2Proof/Safety.lean ====
section
/-! DEFINITION. The terms that claims use: what a run is, the invariant of the machine's state, what a step leaves
unchanged, and the causes a process dies of. -/

namespace Sys2Proof.Machine

/-! ## Runs -/

/-- The state after `n` ticks, none if one of them is a fault or a refusal. -/
def State.after (cfg : Config) : Nat → State → Option State
  | 0, s => some s
  | n + 1, s =>
    match tick cfg s with
    | .next t => State.after cfg n t
    | .fault _ => none
    | .refused _ => none

/-- A run is safe for `n` ticks when none of them is a machine fault or a refusal (00_scope.md R13). A process that is
killed is no loss of safety: it is the architecture's normal fault handling. -/
def State.safeFor (cfg : Config) (n : Nat) (s : State) : Prop := (s.after cfg n).isSome = true

/-! ## The invariant -/

/-- A tag names a process that exists: a group of the machine and one of the ids given in it (10_state.md R24). -/
def State.tagNames (s : State) (o : OwnerTag) : Prop :=
  ∃ g ∈ s.groups, g.player = o.player ∧ Config.firstPid ≤ o.pid ∧ o.pid < g.nextPid

/-- The core: canonical form, every listed cell inside the core and owned by a process that exists. -/
def State.coreWf (s : State) : Prop :=
  Memory.wf s.core = true ∧
  ∀ a c, (a, c) ∈ s.core → a < s.coreSize ∧ ∃ o, c.owner = some o ∧ s.tagNames o

/-- A process at index `i` of a group: its id is its index (R31), it belongs to the group, it has a program (R26), and
register 0 holds 0 (R27). -/
def Process.wf (p : Process) (player i : Nat) : Prop :=
  p.id = Config.firstPid + i ∧ p.player = player ∧ p.prog ≠ [] ∧ p.x[0] = 0#32

/-- A group: a player number of 1 to 9, both indices inside the list (R33), every process as it must be. -/
def Group.wf (g : Group) : Prop :=
  1 ≤ g.player ∧ g.player ≤ 9 ∧ g.pcur < max 1 g.procs.length ∧
  (∀ i, g.last = some i → i < g.procs.length) ∧
  ∀ (i : Nat) (p : Process), g.procs[i]? = some p → p.wf g.player i

/-- The invariant of the machine (10_state.md R20 to R34): the size is legal, the core is well formed, every group is,
no two groups have one player number (so there are at most nine), and the cursor names a group. -/
def State.wf (s : State) : Prop :=
  1 ≤ s.coreSize ∧ s.coreSize ≤ 65535 ∧ s.coreWf ∧
  (∀ g ∈ s.groups, g.wf) ∧ (s.groups.map Group.player).Nodup ∧ s.gcur < max 1 s.groups.length

/-- An unowned cell holds the forced-halt word (R25). -/
def State.unownedHalt (s : State) : Prop :=
  ∀ a : Nat, (Memory.read s.core a).owner = none → (Memory.read s.core a).word = Config.hltWord

/-! ## What is left unchanged -/

/-- Every cell of the core reads as before, word and tag. -/
def SameCore (s t : State) : Prop := ∀ a : Nat, Memory.read t.core a = Memory.read s.core a

/-- Every group is there as before: its player, its cursor, its last index and the number of its processes. -/
def SameGroups (s t : State) : Prop :=
  t.groups.length = s.groups.length ∧
  ∀ (k : Nat) (g : Group), s.groups[k]? = some g → ∃ g', t.groups[k]? = some g' ∧
    g'.player = g.player ∧ g'.pcur = g.pcur ∧ g'.last = g.last ∧ g'.procs.length = g.procs.length

/-- Every process of the machine but the one on turn is as before. -/
def SameOthers (s t : State) (r : Running) : Prop :=
  ∀ k n, (k, n) ≠ (r.group, r.proc) → t.procAt k n = s.procAt k n

/-- Size, cursor, groups and all other processes are as before: at most the core, the draw counter and the record of the
process on turn may differ. -/
def SameBut (s t : State) (r : Running) : Prop :=
  t.coreSize = s.coreSize ∧ t.gcur = s.gcur ∧ SameGroups s t ∧ SameOthers s t r

/-- At most the record of the process on turn differs. -/
def OnlyRunning (s t : State) (r : Running) : Prop := SameBut s t r ∧ t.draws = s.draws ∧ SameCore s t

/-- Id, player and program of a process are as before: no instruction writes them (R36, R32). -/
def SameIdentity (p q : Process) : Prop := q.id = p.id ∧ q.player = p.player ∧ q.prog = p.prog

/-- Every general register, `HI`, `LO` and the identity of a process are as before: at most `pc` and the liveness flag
differ. -/
def SameData (p q : Process) : Prop :=
  (∀ k, q.read k = p.read k) ∧ q.hi = p.hi ∧ q.lo = p.lo ∧ SameIdentity p q

/-- The effect of an instruction that does nothing but write register `rd`: the register holds `v`, or 0 if it is
register 0; every other register, `HI`, `LO`, liveness and identity are as before; `pc` advances by one cell. -/
def WroteRegister (p q : Process) (rd : Reg) (v : Word) : Prop :=
  q.read rd = (if rd = 0 then 0#32 else v) ∧ (∀ k, k ≠ rd → q.read k = p.read k) ∧
  q.hi = p.hi ∧ q.lo = p.lo ∧ q.alive = p.alive ∧ SameIdentity p q ∧ q.pc = p.pc + 1#32

/-- The effect of a kill on the process on turn: dead, `pc` one cell on, everything else as before (60_exceptions.md
R281, R283, 46_process_system.md R200). -/
def Killed (p q : Process) : Prop := SameData p q ∧ q.alive = false ∧ q.pc = p.pc + 1#32

/-- An instruction completes by changing at most the record of the process on turn, from `p` to a `q` with `P p q`. -/
def Completes (i : Instr) (s : State) (P : Process → Process → Prop) : Prop :=
  ∀ r, s.running = some r →
    ∃ t q, exec i s = .next t ∧ OnlyRunning s t r ∧ t.procAt r.group r.proc = some q ∧ P r.p q

/-- A fork at `a` has registered a child (46_process_system.md R203, R204, 10_state.md R46): it is the last process of the
parent's group, fresh, alive, at the target, with the next id and the parent's player and program; every other process
but the parent is as before, and so are all groups' players and cursors. -/
def ChildRegistered (s t : State) (r : Running) (a : Word) : Prop :=
  (∃ c, t.procAt r.group r.g.procs.length = some c ∧ (∀ k, c.read k = 0#32) ∧ c.hi = 0#32 ∧ c.lo = 0#32 ∧ c.pc = a ∧
    c.alive = true ∧ c.id = r.g.nextPid ∧ c.player = r.p.player ∧ c.prog = r.p.prog) ∧
  t.procAt r.group (r.g.procs.length + 1) = none ∧
  (∀ k n, (k, n) ≠ (r.group, r.proc) → (k, n) ≠ (r.group, r.g.procs.length) → t.procAt k n = s.procAt k n) ∧
  t.groups.length = s.groups.length ∧
  (∀ (k : Nat) (g : Group), s.groups[k]? = some g → ∃ g', t.groups[k]? = some g' ∧
    g'.player = g.player ∧ g'.pcur = g.pcur ∧ g'.last = g.last) ∧
  t.coreSize = s.coreSize ∧ t.gcur = s.gcur ∧ t.draws = s.draws

/-- A fork at `a` has copied the parent's program, as far as the core reaches, with the child's tag; every other cell is
as before (R203, R204). -/
def ProgramCopied (s t : State) (r : Running) (a : Nat) : Prop :=
  (∀ i w, r.p.prog[i]? = some w → a + i < s.coreSize →
    Memory.read t.core (a + i) = ⟨w, some ⟨r.p.player, r.g.nextPid⟩⟩) ∧
  ∀ b, (b < a ∨ a + r.p.prog.length ≤ b ∨ s.coreSize ≤ b) → Memory.read t.core b = Memory.read s.core b

/-- A `syscall` with call id `id` completes with the result `v` in register 1 (R208). -/
def Answers (s : State) (r : Running) (id : Int) (v : Word) : Prop :=
  sval (r.p.read 1) = id →
    ∃ t q, exec .syscall s = .next t ∧ OnlyRunning s t r ∧ t.procAt r.group r.proc = some q ∧
      WroteRegister r.p q 1 v

/-! ## Why a process dies -/

/-- The nine kill causes (60_exceptions.md R281). They are labels; the machine records none of them. -/
inductive KillCause where
  | fetchOutOfRange | fetchForeignOwner | halt | loadOutOfRange | storeOutOfRange | forkTargetOutOfRange
  | forkCopyRunOff | syscallHalt | syscallUnknown
deriving DecidableEq, Repr

/-- The kill cause of an instruction itself, if its condition holds (R281, R285). -/
def instrKillCause (i : Instr) (s : State) (r : Running) : Option KillCause :=
  match i with
  | .hlt => some .halt
  | .lw _ rs imm => if s.inRange (effectiveAddress r.p rs imm) then none else some .loadOutOfRange
  | .sw _ rs imm => if s.inRange (effectiveAddress r.p rs imm) then none else some .storeOutOfRange
  | .frk rt =>
    if s.inRange (sval (r.p.read rt)) then
      if sval (r.p.read rt) + r.p.prog.length ≤ s.coreSize then none else some .forkCopyRunOff
    else some .forkTargetOutOfRange
  | .syscall =>
    if sval (r.p.read 1) = 0 then some .syscallHalt
    else if sval (r.p.read 1) < 0 ∨ 12 < sval (r.p.read 1) then some .syscallUnknown
    else none
  | .sllv _ _ _ => none
  | .srlv _ _ _ => none
  | .jr _ => none
  | .mult _ _ => none
  | .divu _ _ => none
  | .sub _ _ _ => none
  | .xor _ _ _ => none
  | .slt _ _ _ => none
  | .blez _ _ => none
  | .bgez _ _ => none
  | .j _ => none
  | .bne _ _ _ => none
  | .slti _ _ _ => none
  | .andi _ _ _ => none
  | .opn => none
  | .rfrk => none
  | .rsw => none

/-- The kill cause of a tick in which the process `r` executes, in the order of R285: fetch range, fetch owner, then the
stored instruction's own condition. -/
def killCause (t : List TableEntry) (s : State) (r : Running) : Option KillCause :=
  if s.inRange (sval r.p.pc) then
    if (s.cellAt (sval r.p.pc)).foreignTo r.g.player then some .fetchForeignOwner
    else (resolveIn t (s.memRead (sval r.p.pc))).bind (fun i => instrKillCause i s r)
  else some .fetchOutOfRange

/-! ## Free runs and fairness -/

/-- A free run `[b, b + k)`: a maximal interval of unowned cells (70_reset_and_hazards.md R313). -/
def State.freeRun (s : State) (b k : Nat) : Prop :=
  b + k ≤ s.coreSize ∧ (∀ i, i < k → (Memory.read s.core (b + i)).owner = none) ∧
  (b = 0 ∨ (Memory.read s.core (b - 1)).owner ≠ none) ∧
  (b + k = s.coreSize ∨ (Memory.read s.core (b + k)).owner ≠ none)

/-- The live indices of a group, in list order from its cursor, wrapping (47_scheduler_fetch.md R253). -/
def Group.liveFromCursor (g : Group) : List Nat :=
  ((List.range g.procs.length).map (fun k => (g.pcur + k) % g.procs.length)).filter g.aliveAt

/-- Which processes of a group are alive. -/
def Group.liveness (g : Group) : List Bool := g.procs.map Process.alive

end Sys2Proof.Machine
end

