-- ==== Sys2Proof/Certificates/Slice0/Obligations.lean ====
section
/-! DEFINITION. The statements for the provers. Each docstring names the rule of spec/ it formalises, or says which
decision of the spec or of the model it rests on and in which log entry that stands. In every statement the
advance of `pc` by one is a 32-bit sum (10_state.md R28, the spec's decision D4, log entry 13). -/

open Sys2Proof Sys2Proof.Machine

/-! ## The decoder -/

/-- 47_scheduler_fetch.md R249: when the word fetched for the process on turn resolves to `i`, the step is `exec i`,
then the group records the process and moves its cursor past it, and the machine's cursor moves on (decision D11 for
the group's cursor, log entry 19; the default table by decision D1, log entry 2). Decoded instructions are well formed
(30_encoding.md R96, R100; the immediates of `bgez`, `blez`, `bne`, `lw` and `sw` are signed by the spec's decision D7,
log entry 15). -/
def Obligations.StepRunsDecodedInstruction : Prop :=
  ∀ (s : State) (r : Running) (i : Instr), s.running = some r → decode (fetch s r.g r.p) = some i →
    i.wellFormed = true ∧
    step s =
      match exec i s with
      | .next t =>
        .next { t with
          groups := t.groups.modify r.group
            (fun g => { g with last := some r.proc, pcur := (r.proc + 1) % g.procs.length })
          gcur := (t.gcur + 1) % t.groups.length }
      | .fault f => .fault f
      | .refused f => .refused f

/-- Words written out from the spec's encodings decode to their instructions, one for every family, boundary
immediates and set unused fields among them (default table: the spec's decision D1, log entry 2; the immediates of `bgez`,
`lw` and `sw` are sign-extended by R96 and the spec's decision D7, log entry 15). -/
def Obligations.ExampleWordsDecode : Prop :=
  decode 0x30431234#32 = some (.andi 3 2 4660) ∧ decode 0x28418000#32 = some (.slti 1 2 (-32768)) ∧
  decode 0x0441FFFE#32 = some (.bgez 2 (-2)) ∧ decode 0x0A000000#32 = some (.j (-33554432)) ∧
  decode 0x8C64FFFF#32 = some (.lw 4 3 (-1)) ∧ decode 0xACA4FFFD#32 = some (.sw 4 5 (-3)) ∧
  decode 0x00430822#32 = some (.sub 1 2 3) ∧ decode 0x00620804#32 = some (.sllv 1 2 3) ∧
  decode 0x00430018#32 = some (.mult 2 3) ∧ decode 0x73FFFFFF#32 = some (.frk 31) ∧
  decode 0x03FFFFCD#32 = some .hlt ∧ decode 0x00000000#32 = none

/-- 30_encoding.md R118, for every table that R99 admits: the word of a well-formed instruction resolves to the
instruction, with every operand at every value its field admits; under the default table every well-formed instruction
has such a word (the table conditions by the spec's decision D26, log entry 35; the signed immediates of `bgez`,
`blez`, `bne`, `lw` and `sw` by decision D7, log entry 15). -/
def Obligations.EncodeResolveRoundTrip : Prop :=
  (∀ (T : List TableEntry) (i : Instr) (w : Word), tableOk T = true → i.wellFormed = true →
    encodeIn T i = some w → resolveIn T w = some i) ∧
  ∀ i : Instr, i.wellFormed = true → ∃ w, encode i = some w ∧ decode w = some i

/-- 30_encoding.md R118 (key symmetry) for the entries R99 admits: the key of an assembled word is the key of the table
entry of its instruction (the conditions by the spec's decision D26, log entry 35). -/
def Obligations.AssembledWordHasEntryKey : Prop :=
  ∀ (e : TableEntry) (i : Instr), entryOk e = true → e.name = i.mnemonic → key (encodeEntry e i) = entryKey e

/-- 30_encoding.md R102 (which the spec derives from R97): the words selected by an entry are those that agree with
its match under its mask (entries admitted by the spec's decision D26, log entry 35). -/
def Obligations.MaskAndMatchSelectWords : Prop :=
  ∀ (e : TableEntry) (w : Word), entryOk e = true →
    (key w = entryKey e ↔
      if e.opcode = 0 then w &&& 0xFC00003F#32 = BitVec.ofNat 32 e.second
      else if e.opcode = 1 then w &&& 0xFC1F0000#32 = 0x04000000#32 ||| (BitVec.ofNat 32 e.second <<< 16)
      else w &&& 0xFC000000#32 = BitVec.ofNat 32 e.opcode <<< 26)

/-- 30_encoding.md R104: the unknown words of the default table (the spec's decision D1, log entry 2), exactly. -/
def Obligations.UnknownWordsAreExactly : Prop :=
  ∀ w : Word, decode w = none ↔
    ((w >>> 26).toNat = 0 ∧ (w &&& 0x3F#32).toNat ∉ [4, 6, 8, 12, 13, 24, 27, 34, 38, 42]) ∨
    ((w >>> 26).toNat = 1 ∧ ((w >>> 16) &&& 0x1F#32).toNat ∉ [0, 1]) ∨
    (w >>> 26).toNat ∈ [3, 4, 6, 7, 8, 9, 11] ∨ (13 ≤ (w >>> 26).toNat ∧ (w >>> 26).toNat ≤ 27) ∨
    (w >>> 26).toNat ∈ [32, 33, 34] ∨ (36 ≤ (w >>> 26).toNat ∧ (w >>> 26).toNat ≤ 42) ∨
    (44 ≤ (w >>> 26).toNat ∧ (w >>> 26).toNat ≤ 63)

/-- 46_process_system.md R201, 30_encoding.md R103, R108: under every table that R99 admits, every word with opcode 0 and
funct 13 is `hlt`, whatever its other fields; the forced-halt word is one of them (the table conditions by the spec's decision
D26, log entry 35). -/
def Obligations.EveryFunctThirteenIsHlt : Prop :=
  Config.hltWord = 13#32 ∧
  ∀ (T : List TableEntry) (w : Word), tableOk T = true → (w >>> 26) = 0#32 → (w &&& 0x3F#32) = 13#32 →
    resolveIn T w = some .hlt

/-- 30_encoding.md R96: under every table, what a word resolves to has its immediate in the range of its field (signed
for `bgez`, `blez`, `bne`, `lw` and `sw` by the spec's decision D7, log entry 15). -/
def Obligations.ResolvedInstructionsAreWellFormed : Prop :=
  ∀ (T : List TableEntry) (w : Word) (i : Instr), resolveIn T w = some i → i.wellFormed = true

/-! ## Construction, reset and the invariant -/

/-- 70_reset_and_hazards.md R311 and 10_state.md R42: `Construct` is refused outside 1 to 65535; inside, every cell of
the core it gives holds the word 13 and has no owner. -/
def Obligations.ConstructGivesUnwrittenCore : Prop :=
  (∀ n : Nat, ¬(1 ≤ n ∧ n ≤ 65535) → construct n = .error .badCoreSize) ∧
  ∀ n : Nat, 1 ≤ n → n ≤ 65535 → ∃ s, construct n = .ok s ∧ s.coreSize = n ∧
    ∀ a : Nat, a < n → Memory.read s.core a = { word := 13#32, owner := none }

/-- The reset state is a constructed machine, of the size the model chose (DESIGN CHOICE, log entry 1): no groups, the
cursor at 0 (the spec's decision D19, log entry 11); and it satisfies the invariant, as every constructed machine does. -/
def Obligations.ResetSatisfiesInvariant : Prop :=
  construct State.reset.coreSize = .ok State.reset ∧ State.reset.groups = [] ∧ State.reset.gcur = 0 ∧ State.reset.wf ∧
  ∀ (n : Nat) (s : State), construct n = .ok s → s.wf

/-- Every step from a state that satisfies the invariant, reachable or not, gives a state that satisfies it (10_state.md
R20 to R34; process ids are indices by decision D10, log entry 12); so does every tick under other parameters. -/
def Obligations.StepKeepsInvariant : Prop :=
  (∀ s t : State, s.wf → step s = .next t → t.wf) ∧
  ∀ (cfg : Config) (s t : State), s.wf → tick cfg s = .next t → t.wf

/-- A load, successful or failed for want of room, keeps the invariant (70_reset_and_hazards.md R312, R316; process
ids are indices by decision D10, log entry 12; bad arguments are refused and a failed load leaves its group by
decision D22, log entry 21; a new group's cursor is 0 by decision D19, log entry 11). -/
def Obligations.LoadKeepsInvariant : Prop :=
  ∀ (s t : State) (player base : Nat) (program : List Word), s.wf →
    (s.load player program base = .loaded t ∨ s.load player program base = .insufficientMemory t) → t.wf

/-- 10_state.md R25 (which the spec derives): an unowned cell holds the word 13; it holds at reset, and every step from
any state where it holds keeps it. -/
def Obligations.UnownedCellsHoldHaltWord : Prop :=
  State.reset.unownedHalt ∧ ∀ s t : State, s.unownedHalt → step s = .next t → t.unownedHalt

/-! ## Registers -/

/-- 10_state.md R27: for any sequence of writes to registers, register 0 among them, reads of register 0 return 0; a
write of register 0 changes nothing at all. -/
def Obligations.RegisterZeroReadsZero : Prop :=
  (∀ (ws : List (Reg × Word)) (p : Process), (ws.foldl (fun q w => q.write w.1 w.2) p).read 0 = 0#32) ∧
  ∀ (p : Process) (v : Word), p.write 0 v = p

/-! ## Immediate arithmetic and compare -/

/-- 41_alu_immediate.md R140, with the default advance of R246. -/
def Obligations.AndiResult : Prop :=
  ∀ (rt rs : Reg) (imm : Nat) (s : State), imm ≤ 65535 →
    Completes (.andi rt rs imm) s (fun p q =>
      WroteRegister p q rt (p.read rs &&& (BitVec.ofNat 16 imm).setWidth 32) ∧
      (q.read rt).toNat < 65536)

/-- 41_alu_immediate.md, `slti`; the register is compared as signed (the spec's decision D5, log entry 15). -/
def Obligations.SltiResult : Prop :=
  ∀ (rt rs : Reg) (imm : Int) (s : State), -32768 ≤ imm → imm ≤ 32767 →
    Completes (.slti rt rs imm) s (fun p q =>
      WroteRegister p q rt (if (p.read rs).slt (BitVec.ofInt 32 imm) then 1#32 else 0#32))

/-! ## Control transfer -/

/-- 42_branch_jump.md, `bgez`, `blez`, `bne`: a taken branch adds its offset to the branch's own address, the other
path adds 1; nothing but `pc` changes (signed reading by decision D5, base by decision D8; log entries 14 and 15; the
32-bit sum by decision D4, log entry 13). -/
def Obligations.BranchResults : Prop :=
  ∀ (rs rt : Reg) (imm : Int) (s : State),
    Completes (.bgez rs imm) s (fun p q => SameData p q ∧ q.alive = p.alive ∧
      q.pc = if 0 ≤ (p.read rs).toInt then p.pc + BitVec.ofInt 32 imm else p.pc + 1#32) ∧
    Completes (.blez rs imm) s (fun p q => SameData p q ∧ q.alive = p.alive ∧
      q.pc = if (p.read rs).toInt ≤ 0 then p.pc + BitVec.ofInt 32 imm else p.pc + 1#32) ∧
    Completes (.bne rs rt imm) s (fun p q => SameData p q ∧ q.alive = p.alive ∧
      q.pc = if p.read rs = p.read rt then p.pc + 1#32 else p.pc + BitVec.ofInt 32 imm)

/-- 42_branch_jump.md R154: `pc` moves by the signed target from the jump's own address; nothing else changes (R150:
the base by the spec's decision D8, log entry 14; the 32-bit sum by decision D4, log entry 13). -/
def Obligations.JumpIsRelative : Prop :=
  ∀ (target : Int) (s : State),
    Completes (.j target) s (fun p q => SameData p q ∧ q.alive = p.alive ∧ q.pc = p.pc + BitVec.ofInt 32 target)

/-- 42_branch_jump.md R155: `pc` becomes the whole register; nothing else changes. -/
def Obligations.JumpRegisterIsAbsolute : Prop :=
  ∀ (rs : Reg) (s : State),
    Completes (.jr rs) s (fun p q => SameData p q ∧ q.alive = p.alive ∧ q.pc = p.read rs)

/-! ## Load and store -/

/-- 43_load_store.md, `lw`: in range, the cell's word whatever its owner; out of range, the process is killed and no
register is written. The address sum is taken in 32 bits (decision D4, log entry 13); no ownership check (decision D25,
log entry 26). -/
def Obligations.LoadResult : Prop :=
  ∀ (rt rs : Reg) (imm : Int) (s : State) (r : Running), s.running = some r →
    effectiveAddress r.p rs imm = (r.p.read rs + BitVec.ofInt 32 imm).toInt ∧
    ∃ t q, exec (.lw rt rs imm) s = .next t ∧ OnlyRunning s t r ∧ t.procAt r.group r.proc = some q ∧
      if 0 ≤ effectiveAddress r.p rs imm ∧ effectiveAddress r.p rs imm < s.coreSize then
        WroteRegister r.p q rt (Memory.read s.core (effectiveAddress r.p rs imm).toNat).word
      else Killed r.p q

/-- 43_load_store.md, `sw`: in range, the one cell at the effective address takes the word and the storing process's
tag, every other cell reads as before; out of range, the process is killed and no cell changes (decision D4 for the
sum, log entry 13). A store in range takes the cell whoever owns it: no ownership check (decision D25, log entry 26).
-/
def Obligations.StoreResult : Prop :=
  ∀ (rt rs : Reg) (imm : Int) (s : State) (r : Running), s.running = some r →
    effectiveAddress r.p rs imm = (r.p.read rs + BitVec.ofInt 32 imm).toInt ∧
    ∃ t q, exec (.sw rt rs imm) s = .next t ∧ t.procAt r.group r.proc = some q ∧
      if 0 ≤ effectiveAddress r.p rs imm ∧ effectiveAddress r.p rs imm < s.coreSize then
        SameBut s t r ∧ t.draws = s.draws ∧ SameData r.p q ∧ q.alive = r.p.alive ∧ q.pc = r.p.pc + 1#32 ∧
        Memory.read t.core (effectiveAddress r.p rs imm).toNat = ⟨r.p.read rt, some ⟨r.p.player, r.p.id⟩⟩ ∧
        ∀ a, a ≠ (effectiveAddress r.p rs imm).toNat → Memory.read t.core a = Memory.read s.core a
      else OnlyRunning s t r ∧ Killed r.p q

/-- 20_memory.md R77: after a store a fetch of that cell sees it at once: a process of the storing group gets the
stored word, a process of any other group the forced-halt word (the address sum by the spec's decision D4, log entry
13; no ownership check of the store by decision D25, log entry 26; player numbers compared by value, decision D23, log
entry 25). -/
def Obligations.StoreIsSeenByNextFetch : Prop :=
  ∀ (rt rs : Reg) (imm : Int) (s t : State) (r : Running), s.running = some r →
    s.inRange (effectiveAddress r.p rs imm) = true → exec (.sw rt rs imm) s = .next t →
    ∀ (g : Sys2Proof.Machine.Group) (p : Process), p.pc.toInt = effectiveAddress r.p rs imm →
      fetch t g p = if g.player = r.p.player then r.p.read rt else 13#32

/-! ## Register arithmetic -/

/-- 44_alu_register.md, `sub`: the difference modulo 2^32, no trap (the spec's decision D3, log entry 32). -/
def Obligations.SubResult : Prop :=
  ∀ (rd rs rt : Reg) (s : State),
    Completes (.sub rd rs rt) s (fun p q => WroteRegister p q rd (p.read rs - p.read rt))

/-- 44_alu_register.md R178, with the default advance of R246. -/
def Obligations.XorResult : Prop :=
  ∀ (rd rs rt : Reg) (s : State),
    Completes (.xor rd rs rt) s (fun p q => WroteRegister p q rd (p.read rs ^^^ p.read rt))

/-- 44_alu_register.md, `slt`: signed (the spec's decision D5, log entry 15). -/
def Obligations.SltResult : Prop :=
  ∀ (rd rs rt : Reg) (s : State),
    Completes (.slt rd rs rt) s (fun p q =>
      WroteRegister p q rd (if (p.read rs).slt (p.read rt) then 1#32 else 0#32))

/-- 44_alu_register.md, `sllv`, `srlv`: logical shifts of `rt` by the low five bits of `rs` (the spec's decision D6, log
entry 16). -/
def Obligations.ShiftResults : Prop :=
  ∀ (rd rt rs : Reg) (s : State),
    Completes (.sllv rd rt rs) s (fun p q =>
      WroteRegister p q rd (p.read rt <<< (p.read rs &&& 31#32).toNat)) ∧
    Completes (.srlv rd rt rs) s (fun p q =>
      WroteRegister p q rd (p.read rt >>> (p.read rs &&& 31#32).toNat))

/-! ## Multiply and divide -/

/-- 45_muldiv.md R190: `HI` and `LO` together are the 64-bit signed product; no general register changes; `pc` advances
(R246). -/
def Obligations.MultResult : Prop :=
  ∀ (rs rt : Reg) (s : State),
    Completes (.mult rs rt) s (fun p q =>
      q.hi ++ q.lo = (p.read rs).signExtend 64 * (p.read rt).signExtend 64 ∧
      (∀ k, q.read k = p.read k) ∧ q.alive = p.alive ∧ SameIdentity p q ∧ q.pc = p.pc + 1#32)

/-- 45_muldiv.md, `divu`: zero divisor gives zeros; otherwise `LO` and `HI` are the magnitudes of the truncating signed
quotient and remainder, 2^31 included (the spec's decision D20, log entry 33). -/
def Obligations.DivuResult : Prop :=
  ∀ (rs rt : Reg) (s : State),
    Completes (.divu rs rt) s (fun p q =>
      (if p.read rt = 0#32 then q.lo = 0#32 ∧ q.hi = 0#32
        else q.lo.toNat = ((p.read rs).toInt.tdiv (p.read rt).toInt).natAbs ∧
          q.hi.toNat = ((p.read rs).toInt.tmod (p.read rt).toInt).natAbs) ∧
      (∀ k, q.read k = p.read k) ∧ q.alive = p.alive ∧ SameIdentity p q ∧ q.pc = p.pc + 1#32)

/-! ## Process and system instructions -/

/-- 46_process_system.md R201: `hlt` kills the executing process and nothing else; `pc` advances (R200). -/
def Obligations.HltKillsOnlyItself : Prop := ∀ s : State, Completes .hlt s Killed

/-- 46_process_system.md, `frk` with a target outside the core: the parent is killed; no child, no cell written. -/
def Obligations.ForkOutOfRangeKillsParent : Prop :=
  ∀ (rt : Reg) (s : State) (r : Running), s.running = some r → s.inRange (sval (r.p.read rt)) = false →
    ∃ t q, exec (.frk rt) s = .next t ∧ OnlyRunning s t r ∧ t.procAt r.group r.proc = some q ∧ Killed r.p q

/-- 46_process_system.md, `frk` when the copy fits: the child is registered, the whole program is copied with its tag, the
parent lives and advances. Fresh registers are zero by the spec's decision D9, the id by decision D10 (log entries 10 and
12). -/
def Obligations.ForkRegistersChildAndCopies : Prop :=
  ∀ (rt : Reg) (s : State) (r : Running), s.running = some r → s.inRange (sval (r.p.read rt)) = true →
    sval (r.p.read rt) + r.p.prog.length ≤ s.coreSize →
    ∃ t q, exec (.frk rt) s = .next t ∧ ChildRegistered s t r (r.p.read rt) ∧
      ProgramCopied s t r (sval (r.p.read rt)).toNat ∧ t.procAt r.group r.proc = some q ∧
      SameData r.p q ∧ q.alive = r.p.alive ∧ q.pc = r.p.pc + 1#32

/-- 46_process_system.md R204, the spec's decision D12 (log entry 18): a copy that runs off the end leaves the child
registered and alive and the cells up to the last written, and kills the parent. The child is that of 10_state.md R46:
fresh registers are zero by the spec's decision D9, the id is by decision D10 (log entries 10 and 12). -/
def Obligations.ForkRunOffKillsParentKeepsChild : Prop :=
  ∀ (rt : Reg) (s : State) (r : Running), s.running = some r → s.inRange (sval (r.p.read rt)) = true →
    s.coreSize < sval (r.p.read rt) + r.p.prog.length →
    ∃ t q, exec (.frk rt) s = .next t ∧ ChildRegistered s t r (r.p.read rt) ∧
      ProgramCopied s t r (sval (r.p.read rt)).toNat ∧ t.procAt r.group r.proc = some q ∧ Killed r.p q

/-- 46_process_system.md, `syscall` service 0 and every id outside 0 to 12: the caller is killed, register 1 is not
written (service numbers by the spec's decision D14, log entry 20). -/
def Obligations.SyscallHaltAndUnknownKill : Prop :=
  ∀ (s : State) (r : Running), s.running = some r →
    (sval (r.p.read 1) = 0 ∨ sval (r.p.read 1) < 0 ∨ 12 < sval (r.p.read 1)) →
    ∃ t q, exec .syscall s = .next t ∧ OnlyRunning s t r ∧ t.procAt r.group r.proc = some q ∧ Killed r.p q

/-- 46_process_system.md, the services that answer a constant of the machine or of the caller: core size 2, network size
stub 3, own id 4, own player 5, reserved stubs 9, 10, 12 (numbers by decision D14, log entry 20; values as words, log
entry 17). -/
def Obligations.SyscallConstantsAndIdentity : Prop :=
  ∀ (s : State) (r : Running), s.running = some r →
    Answers s r 2 (BitVec.ofNat 32 s.coreSize) ∧ Answers s r 3 1#32 ∧ Answers s r 4 (BitVec.ofNat 32 r.p.id) ∧
    Answers s r 5 (BitVec.ofNat 32 r.p.player) ∧ Answers s r 9 0#32 ∧ Answers s r 10 0#32 ∧ Answers s r 12 0#32

/-- 46_process_system.md, services 6 and 7: the number of groups with a live process, and the number of groups (decision
D14, log entry 20; the counts are written as words, 00_scope.md R8, log entry 17). -/
def Obligations.SyscallCountsGroups : Prop :=
  ∀ (s : State) (r : Running), s.running = some r →
    Answers s r 6 (BitVec.ofNat 32 (s.groups.filter (fun g => g.procs.any Process.alive)).length) ∧
    Answers s r 7 (BitVec.ofNat 32 s.groups.length)

/-- 46_process_system.md, service 1: register 1 takes some value below the core size, for whatever value the draw has;
the model's draw counter moves on (decision D14 for the number, log entry 20; the draw is a free value, log entry 4). -/
def Obligations.SyscallRandomIsBelowCoreSize : Prop :=
  ∀ (s : State) (r : Running), s.running = some r → 0 < s.coreSize → s.coreSize ≤ 65535 → sval (r.p.read 1) = 1 →
    ∃ t q v, exec .syscall s = .next t ∧ SameBut s t r ∧ SameCore s t ∧ t.draws = s.draws + 1 ∧
      t.procAt r.group r.proc = some q ∧ WroteRegister r.p q 1 v ∧ v.toNat < s.coreSize

/-- 46_process_system.md, services 8 and 11: the score (an open parameter, decision D15, log entry 5) or the number of
live processes of the group whose player number is in register 2, the number written as a word (00_scope.md R8, log
entry 17); with no such group the step is refused (decision D14, log entry 20). -/
def Obligations.SyscallGroupServices : Prop :=
  ∀ (s : State) (r : Running), s.running = some r →
    (∀ g, s.groups.find? (fun g => decide ((g.player : Int) = sval (r.p.read 2))) = some g →
      Answers s r 8 (score s.coreSize s.core s.groups s.gcur g) ∧
      Answers s r 11 (BitVec.ofNat 32 (g.procs.filter Process.alive).length)) ∧
    ((∀ g ∈ s.groups, (g.player : Int) ≠ sval (r.p.read 2)) →
      (sval (r.p.read 1) = 8 → exec .syscall s = .refused (.noSuchGroup 8 (sval (r.p.read 2)))) ∧
      (sval (r.p.read 1) = 11 → exec .syscall s = .refused (.noSuchGroup 11 (sval (r.p.read 2)))))

/-- 46_process_system.md R223, R224, R225: `open`, `rfrk`, `rsw` change nothing but `pc`, which advances by one. -/
def Obligations.ReservedInstructionsOnlyAdvance : Prop :=
  ∀ s : State,
    Completes .opn s (fun p q => q = { p with pc := p.pc + 1#32 }) ∧
    Completes .rfrk s (fun p q => q = { p with pc := p.pc + 1#32 }) ∧
    Completes .rsw s (fun p q => q = { p with pc := p.pc + 1#32 })

/-! ## The scheduler -/

/-- 47_scheduler_fetch.md R242: the process of a group's step is the first live one from the cursor on, wrapping; there is
none exactly when no process of the list is alive (R243). -/
def Obligations.PickIsFirstLiveFromCursor : Prop :=
  ∀ g : Sys2Proof.Machine.Group,
    (∀ i, g.pick = some i ↔ ∃ k, k < g.procs.length ∧ i = (g.pcur + k) % g.procs.length ∧ g.aliveAt i = true ∧
      ∀ k', k' < k → g.aliveAt ((g.pcur + k') % g.procs.length) = false) ∧
    (g.pick = none ↔ ∀ p ∈ g.procs, p.alive = false)

/-- 47_scheduler_fetch.md, the fetch: the stored word for a `pc` inside the core on a cell that no other group owns,
else the word 13. An unowned cell gives its stored word (the spec's decision D13), and player numbers are compared by
value (decision D23; log entry 25). -/
def Obligations.FetchSubstitutesHalt : Prop :=
  ∀ (s : State) (g : Sys2Proof.Machine.Group) (p : Process),
    fetch s g p =
      if 0 ≤ p.pc.toInt ∧ p.pc.toInt < s.coreSize ∧
          ∀ o, (Memory.read s.core p.pc.toInt.toNat).owner = some o → o.player = g.player
      then (Memory.read s.core p.pc.toInt.toNat).word else 13#32

/-- 60_exceptions.md R281, FetchOutOfRange and FetchForeignOwner: under every table R99 admits, a process on turn
whose `pc` is outside the core, or on a cell of another group, dies in the tick with its `pc` advanced, whatever the
cell holds; no cell and no other process changes (the table conditions by the spec's decision D26, log entry 35;
player numbers compared by value, decision D23, log entry 25). -/
def Obligations.ForcedHaltKillsIntruder : Prop :=
  ∀ (cfg : Config) (s : State) (r : Running), tableOk cfg.table = true → s.running = some r →
    (s.inRange (sval r.p.pc) = false ∨
      ∃ o, (Memory.read s.core (sval r.p.pc).toNat).owner = some o ∧ o.player ≠ r.g.player) →
    ∃ t q, tick cfg s = .next t ∧ t.procAt r.group r.proc = some q ∧ Killed r.p q ∧ SameCore s t ∧
      SameOthers s t r ∧ t.coreSize = s.coreSize

/-- 20_memory.md R71 and 10_state.md R25: where unowned cells hold the word 13, any instruction but `hlt` that a step
runs was fetched from a cell tagged with the executing process's own group (player numbers compared by value, the
spec's decision D23, log entry 25). -/
def Obligations.OnlyOwnCodeExecutes : Prop :=
  ∀ (s : State) (r : Running) (i : Instr), s.unownedHalt → s.running = some r →
    decode (fetch s r.g r.p) = some i → i ≠ .hlt →
    0 ≤ r.p.pc.toInt ∧ r.p.pc.toInt < s.coreSize ∧
      ∃ o, (Memory.read s.core r.p.pc.toInt.toNat).owner = some o ∧ o.player = r.g.player

/-- 47_scheduler_fetch.md R247, the spec's decision D2 (log entry 3): an unknown word is a machine fault that names the
word and its address under the policy `fault`, and kills the process under the policy `kill`. -/
def Obligations.UnknownWordFaultsOrKills : Prop :=
  ∀ (T : List TableEntry) (s : State) (r : Running), s.running = some r → resolveIn T (fetch s r.g r.p) = none →
    tick { table := T, unknownPolicy := .fault } s
      = .fault (.unknownInstruction (fetch s r.g r.p) r.p.pc.toInt) ∧
    ∃ t q, tick { table := T, unknownPolicy := .kill } s = .next t ∧ t.procAt r.group r.proc = some q ∧
      Killed r.p q ∧ SameCore s t ∧ SameOthers s t r

/-- 47_scheduler_fetch.md R240, R243: without groups a step changes nothing (decision D18, log entry 22); with no live
process in the group on turn it moves the machine's cursor and nothing else. That the group's own cursor stays is the
spec's reading, not the source's: "That `pcur` does not move is this spec's reading" (R243, log entry 39). -/
def Obligations.StepWithoutLiveProcess : Prop :=
  (∀ s : State, s.groups = [] → step s = .next s) ∧
  ∀ s : State, s.groups ≠ [] → (∀ g, s.groups[s.gcur]? = some g → ∀ p ∈ g.procs, p.alive = false) →
    step s = .next { s with gcur := (s.gcur + 1) % s.groups.length }

/-- 47_scheduler_fetch.md R248 (the spec's decision D11, log entry 19): after a step in which a process ran, its group
has recorded it and stands one past it, at the list's length after execution; the other groups are as before, and the
machine's cursor is at the next group (R240). -/
def Obligations.CursorsAfterStep : Prop :=
  ∀ (s t : State) (r : Running), s.running = some r → step s = .next t →
    t.gcur = (s.gcur + 1) % s.groups.length ∧ t.groups.length = s.groups.length ∧
    (∃ g, t.groups[r.group]? = some g ∧ g.player = r.g.player ∧ g.last = some r.proc ∧
      g.pcur = (r.proc + 1) % g.procs.length) ∧
    ∀ k, k ≠ r.group → t.groups[k]? = s.groups[k]?

/-- 10_state.md R26, 60_exceptions.md R282, R298: a step changes the record of no process but the one on turn, whatever
instruction it runs and however it ends. -/
def Obligations.StepChangesNoOtherProcess : Prop :=
  ∀ (s t : State) (k n : Nat) (p : Process), step s = .next t → s.procAt k n = some p →
    (∀ r, s.running = some r → (k, n) ≠ (r.group, r.proc)) → t.procAt k n = some p

/-- 10_state.md R30, R32, R33, R36, 60_exceptions.md R283: a step removes no process and changes no id, player or
program; a dead process stays dead and its whole record stays as it was. -/
def Obligations.DeadProcessesNeverChange : Prop :=
  ∀ (cfg : Config) (s t : State) (k n : Nat) (p : Process), tick cfg s = .next t → s.procAt k n = some p →
    ∃ q, t.procAt k n = some q ∧ SameIdentity p q ∧ (p.alive = false → q = p)

/-- 20_memory.md R68, 10_state.md R24: a step changes a cell only by giving it a tag of the executing process's player,
inside the core; so an owned cell never becomes unowned. -/
def Obligations.StepTagsEveryCellItWrites : Prop :=
  ∀ (s t : State) (a : Nat), step s = .next t →
    (Memory.read t.core a = Memory.read s.core a ∨
      a < s.coreSize ∧ ∃ r w pid, s.running = some r ∧
        Memory.read t.core a = ⟨w, some ⟨r.p.player, pid⟩⟩) ∧
    ((Memory.read s.core a).owner ≠ none → (Memory.read t.core a).owner ≠ none)

/-- 20_memory.md R61: no instruction but `sw` and `frk` writes the core. -/
def Obligations.OnlyStoreAndForkWriteCore : Prop :=
  ∀ (i : Instr) (s t : State), i.mnemonic ≠ .sw → i.mnemonic ≠ .frk → exec i s = .next t → SameCore s t

/-- 60_exceptions.md R281, R285: the process on turn is dead after a tick exactly when one of the nine kill causes
holds in the state before it (policy `fault`, the spec's default, decision D2, log entry 3; every table R99 admits,
decision D26, log entry 35; the halting call id by decision D14, log entry 20; the address sum by decision D4, log
entry 13). That nothing else kills rests also on the lack of an ownership check of `lw` and `sw` (decision D25, log
entry 26) and of arithmetic traps (decisions D3 and D20, log entries 32 and 33); owners are compared by value at the
fetch, and an unowned cell is not foreign (decisions D23 and D13, log entry 25). -/
def Obligations.ProcessDiesExactlyByItsCauses : Prop :=
  ∀ (cfg : Config) (s t : State) (r : Running), tableOk cfg.table = true → cfg.unknownPolicy = .fault →
    s.running = some r → tick cfg s = .next t →
    ∃ q, t.procAt r.group r.proc = some q ∧ (q.alive = false ↔ killCause cfg.table s r ≠ none)

/-- 47_scheduler_fetch.md R253 (which the spec derives): from a turn of a group, if over the next `k` turns of the group,
`k` the number of its live processes, no process of it dies and none is added, then these turns run its live processes
once each, in list order from its cursor, one turn every `G` ticks, and leave the cursor past the last of them (the cursor
by the spec's decision D11, log entry 19). -/
def Obligations.LiveProcessesRunInTurn : Prop :=
  ∀ (cfg : Config) (s : State) (g : Sys2Proof.Machine.Group), s.groups[s.gcur]? = some g → g.liveFromCursor ≠ [] →
    (∀ n, n ≤ g.liveFromCursor.length * s.groups.length → ∃ t h, s.after cfg n = some t ∧
      t.groups[s.gcur]? = some h ∧ h.liveness = g.liveness) →
    (∀ m i, g.liveFromCursor[m]? = some i → ∃ t r, s.after cfg (m * s.groups.length) = some t ∧
      t.running = some r ∧ r.group = s.gcur ∧ r.proc = i) ∧
    ∃ t h, s.after cfg (g.liveFromCursor.length * s.groups.length) = some t ∧ t.groups[s.gcur]? = some h ∧
      ∀ i, g.liveFromCursor.getLast? = some i → h.pcur = (i + 1) % g.procs.length

/-! ## Transactions -/

/-- 70_reset_and_hazards.md R312, R315: for a legal player, a program that is not empty and a valid placement the load
succeeds: it writes the program with the new process's tag and no other cell, and appends one process, alive, at the
placement, to the player's group, created at the end of the list if there was none. Registers are zero by decision D9
and the id is the index by decision D10 (log entries 10 and 12). The player's group keeps its cursor and last index; those
of a group that the load creates are 0 and none (10_state.md R44, decision D19, log entry 11). -/
def Obligations.LoadPlacesProgram : Prop :=
  ∀ (s : State) (player base : Nat) (program : List Word), 1 ≤ player → player ≤ 9 → program ≠ [] →
    s.validPlacement program.length base = true →
    ∃ t g q, s.load player program base = .loaded t ∧ t.groupOf player = some g ∧
      g.procs = (match s.groupOf player with
        | some g₀ => g₀.procs
        | none => []) ++ [q] ∧
      (∀ k, q.read k = 0#32) ∧ q.hi = 0#32 ∧ q.lo = 0#32 ∧ q.pc = BitVec.ofNat 32 base ∧ q.alive = true ∧
      q.id + 1 = g.procs.length ∧ q.player = player ∧ q.prog = program ∧
      (∀ i w, program[i]? = some w → Memory.read t.core (base + i) = ⟨w, some ⟨player, q.id⟩⟩) ∧
      (∀ a, a < base ∨ base + program.length ≤ a → Memory.read t.core a = Memory.read s.core a) ∧
      g.player = player ∧
      (match s.groupOf player with
        | some g₀ => g.pcur = g₀.pcur ∧ g.last = g₀.last
        | none => g.pcur = 0 ∧ g.last = none) ∧
      (∀ k : Nat, k ≠ player → t.groupOf k = s.groupOf k) ∧
      t.groups.map Group.player = (match s.groupOf player with
        | some _ => s.groups.map Group.player
        | none => s.groups.map Group.player ++ [player]) ∧
      t.coreSize = s.coreSize ∧ t.gcur = s.gcur ∧ t.draws = s.draws

/-- 70_reset_and_hazards.md R316, R317: bad arguments are refused; with no valid placement the load fails, no cell
changes and no process is created, and a group created for a first load stays, empty (the spec's decision D22, log entry
21), with its cursor at 0 and no last index (10_state.md R44, the spec's decision D19, log entry 11). -/
def Obligations.LoadFailureLeavesEmptyGroup : Prop :=
  ∀ (s : State) (player base : Nat) (program : List Word),
    (¬(1 ≤ player ∧ player ≤ 9) → s.load player program base = .refused .badPlayer) ∧
    (1 ≤ player → player ≤ 9 → program = [] → s.load player program base = .refused .emptyProgram) ∧
    (1 ≤ player → player ≤ 9 → program ≠ [] → (∀ b, s.validPlacement program.length b = false) →
      s.load player program base = .insufficientMemory
        (match s.groupOf player with
        | some _ => s
        | none => { s with groups := s.groups ++ [{ player := player, procs := [], pcur := 0, last := none }] }))

/-- 70_reset_and_hazards.md R313: the valid placements of `n` words are the offsets, in some maximal free run at least `n`
long, that leave room for the whole program; equally, the addresses where `n` unowned cells lie inside the core. A load starts at
such an offset and writes every word from there on with the new process's tag. -/
def Obligations.ValidPlacementsAreOffsetsInFreeRuns : Prop :=
  ∀ (s : State) (n b : Nat), 1 ≤ n →
    (b ∈ s.validPlacements n ↔ ∃ r k, s.freeRun r k ∧ n ≤ k ∧ r ≤ b ∧ b ≤ r + k - n) ∧
    (b ∈ s.validPlacements n ↔
      b + n ≤ s.coreSize ∧ ∀ i, i < n → (Memory.read s.core (b + i)).owner = none) ∧
    ∀ (player : Nat) (program : List Word) (t : State), program.length = n → s.load player program b = .loaded t →
      (∃ r k, s.freeRun r k ∧ n ≤ k ∧ r ≤ b ∧ b ≤ r + k - n) ∧
      ∃ g q, t.groupOf player = some g ∧ g.procs.getLast? = some q ∧
        ∀ i w, program[i]? = some w → Memory.read t.core (b + i) = ⟨w, some ⟨player, q.id⟩⟩

/-- 20_memory.md R72: `ReadCell` gives the cell for an address inside the core and an access fault to the caller
otherwise. -/
def Obligations.ReadCellIsBoundsChecked : Prop :=
  ∀ (s : State) (a : Int),
    (0 ≤ a ∧ a < s.coreSize → s.readCell a = .ok (Memory.read s.core a.toNat)) ∧
    (¬(0 ≤ a ∧ a < s.coreSize) → s.readCell a = .error .accessFault)

/-- 47_scheduler_fetch.md R254 to R257: the counts of groups, of runnable groups and of a group's live processes, and
a group's score, an open parameter (decision D15, log entry 5); a player without a group is an error to the host (the
spec's U9; the count of players by decision D14, log entry 20). -/
def Obligations.QueriesCountGroups : Prop :=
  ∀ s : State,
    s.countPlayers = s.groups.length ∧
    s.countRunnableGroups = (s.groups.filter (fun g => g.procs.any Process.alive)).length ∧
    ∀ k : Int,
      (∀ g, s.groups.find? (fun g => decide ((g.player : Int) = k)) = some g →
        s.countRunnable k = .ok (g.procs.filter Process.alive).length ∧
        s.scoreOf k = .ok (score s.coreSize s.core s.groups s.gcur g)) ∧
      ((∀ g ∈ s.groups, (g.player : Int) ≠ k) →
        s.countRunnable k = .error .noSuchGroup ∧ s.scoreOf k = .error .noSuchGroup)

/-- 47_scheduler_fetch.md R251: the verdict is a draw, a win or neither as no group, exactly one group or more groups are
runnable. -/
def Obligations.VerdictCountsRunnableGroups : Prop :=
  ∀ s : State,
    (s.verdict = .draw ↔ s.runnableGroups = 0) ∧
    (∀ k, s.verdict = .winner k ↔
      s.runnableGroups = 1 ∧ ∃ g ∈ s.groups, (∃ p ∈ g.procs, p.alive = true) ∧ g.player = k) ∧
    (s.verdict = .continuing ↔ 2 ≤ s.runnableGroups)

/-- 47_scheduler_fetch.md R250, R252: `Run` takes whole cycles: from a cursor at group `c` of `G` a cycle is `G - c`
ticks, and the verdict is taken at its end; no cycles is `Continuing`, no groups is a draw (decision D18, log entry
22). A machine fault in a tick of the cycle ends `Run` with that fault, and a refusal with that refusal (00_scope.md
R13; the policy by decision D2, log entry 3). -/
def Obligations.RunTakesWholeCycles : Prop :=
  ∀ (cfg : Config) (n : Nat) (s : State),
    (s.groups = [] → run cfg n s = .next (s, .draw)) ∧
    (s.groups ≠ [] → run cfg 0 s = .next (s, .continuing)) ∧
    (s.gcur < s.groups.length → ∀ t, s.after cfg (s.groups.length - s.gcur) = some t →
      t.gcur = 0 ∧ run cfg (n + 1) s = if t.verdict = .continuing then run cfg n t else .next (t, t.verdict)) ∧
    (∀ (k : Nat) (u : State), s.gcur + k < s.groups.length → s.after cfg k = some u →
      (∀ f, tick cfg u = .fault f → run cfg (n + 1) s = .fault f) ∧
      (∀ f, tick cfg u = .refused f → run cfg (n + 1) s = .refused f))
end

