-- ==== Sys2Proof/Machine/Assembly.lean ====
section
/-! DEFINITION. The assembly syntax (30_encoding.md section 7) on tokens, and the disassembly text. The character-level
lexer and the file form of the table are outside the block (00_scope.md R5); neither text nor tokens reach execution. -/

namespace Sys2Proof.Machine

/-- The token at the head of the input is not what was expected: the parse error that names it (R114). -/
def unexpected {α : Type} (ts : List PlacedToken) : Except HostError α := .error (.parse ts.head?)

/-- A register argument: 0 to 31 (R114). -/
def takeReg : List PlacedToken → Except HostError (Reg × List PlacedToken)
  | (.reg n, place) :: rest =>
    if 0 ≤ n ∧ n ≤ 31 then .ok (Fin.ofNat 32 n.toNat, rest) else .error (.range (.reg n, place))
  | ts => unexpected ts

/-- A number in a range (R114). -/
def takeNum (lo hi : Int) : List PlacedToken → Except HostError (Int × List PlacedToken)
  | (.num z, place) :: rest => if lo ≤ z ∧ z ≤ hi then .ok (z, rest) else .error (.range (.num z, place))
  | ts => unexpected ts

/-- A signed 16-bit immediate (R114). -/
def takeSigned : List PlacedToken → Except HostError (Int × List PlacedToken) := takeNum (-32768) 32767

/-- A shift amount, 0 to 31 (R114). No instruction of R115 has one: `sllv` and `srlv` take theirs from a register. -/
def takeShift : List PlacedToken → Except HostError (Int × List PlacedToken) := takeNum 0 31

/-- One exact token of punctuation (R114). -/
def takeToken (t : Token) : List PlacedToken → Except HostError (List PlacedToken)
  | (u, place) :: rest => if u = t then .ok rest else unexpected ((u, place) :: rest)
  | [] => unexpected []

/-- The address operand `imm($s)` of a load or store (R114). -/
def takeAddress (ts : List PlacedToken) : Except HostError (Int × Reg × List PlacedToken) := do
  let (imm, ts) ← takeSigned ts
  let ts ← takeToken .lparen ts
  let (s, ts) ← takeReg ts
  let ts ← takeToken .rparen ts
  .ok (imm, s, ts)

/-- Two register arguments. -/
def takeReg2 (ts : List PlacedToken) : Except HostError (Reg × Reg × List PlacedToken) := do
  let (a, ts) ← takeReg ts
  let (b, ts) ← takeReg ts
  .ok (a, b, ts)

/-- Three register arguments. -/
def takeReg3 (ts : List PlacedToken) : Except HostError (Reg × Reg × Reg × List PlacedToken) := do
  let (a, ts) ← takeReg ts
  let (b, ts) ← takeReg ts
  let (c, ts) ← takeReg ts
  .ok (a, b, c, ts)

/-- The operands of a mnemonic, in the order of R115 (decision D21; log entry 30). That `open`, `rfrk` and `rsw` take no
operands is the model's choice (DESIGN CHOICE, log entry 38): R115, R223 and 91_not_in_source.md N8 leave it open. -/
def takeOperands (m : Mnemonic) (ts : List PlacedToken) : Except HostError (Instr × List PlacedToken) :=
  match m with
  | .sub => do let (d, s, t, ts) ← takeReg3 ts; .ok (.sub d s t, ts)
  | .xor => do let (d, s, t, ts) ← takeReg3 ts; .ok (.xor d s t, ts)
  | .slt => do let (d, s, t, ts) ← takeReg3 ts; .ok (.slt d s t, ts)
  | .sllv => do let (d, t, s, ts) ← takeReg3 ts; .ok (.sllv d t s, ts)
  | .srlv => do let (d, t, s, ts) ← takeReg3 ts; .ok (.srlv d t s, ts)
  | .mult => do let (s, t, ts) ← takeReg2 ts; .ok (.mult s t, ts)
  | .divu => do let (s, t, ts) ← takeReg2 ts; .ok (.divu s t, ts)
  | .jr => do let (s, ts) ← takeReg ts; .ok (.jr s, ts)
  | .hlt => .ok (.hlt, ts)
  | .syscall => .ok (.syscall, ts)
  | .andi => do
    let (t, s, ts) ← takeReg2 ts
    let (imm, ts) ← takeNum 0 65535 ts
    .ok (.andi t s imm.toNat, ts)
  | .slti => do
    let (t, s, ts) ← takeReg2 ts
    let (imm, ts) ← takeSigned ts
    .ok (.slti t s imm, ts)
  | .bne => do
    let (s, t, ts) ← takeReg2 ts
    let (imm, ts) ← takeSigned ts
    .ok (.bne s t imm, ts)
  | .bgez => do
    let (s, ts) ← takeReg ts
    let (imm, ts) ← takeSigned ts
    .ok (.bgez s imm, ts)
  | .blez => do
    let (s, ts) ← takeReg ts
    let (imm, ts) ← takeSigned ts
    .ok (.blez s imm, ts)
  | .lw => do
    let (t, ts) ← takeReg ts
    let (imm, s, ts) ← takeAddress ts
    .ok (.lw t s imm, ts)
  | .sw => do
    let (t, ts) ← takeReg ts
    let (imm, s, ts) ← takeAddress ts
    .ok (.sw t s imm, ts)
  | .j => do
    let (target, ts) ← takeNum (-33554432) 33554431 ts
    .ok (.j target, ts)
  | .frk => do let (t, ts) ← takeReg ts; .ok (.frk t, ts)
  | .opn => .ok (.opn, ts)
  | .rfrk => .ok (.rfrk, ts)
  | .rsw => .ok (.rsw, ts)

/-- One instruction: a mnemonic of the table, then its operands (R116). A word that names none is an unknown mnemonic, any
other token where a mnemonic is expected a parse error (R114). -/
def takeInstr (t : List TableEntry) : List PlacedToken → Except HostError (Word × List PlacedToken)
  | (.word name, place) :: rest =>
    match (mnemonicOfText name).bind (entryOfName t) with
    | none => .error (.unknownMnemonic name place)
    | some e => do
      let (i, rest) ← takeOperands e.name rest
      .ok (encodeEntry e i, rest)
  | ts => unexpected ts

/-- A program from its tokens, at most `fuel` instructions: until the tokens are exhausted or an empty token stands where
a mnemonic is expected, which is the end of input (R116). -/
def assembleFuel (t : List TableEntry) : Nat → List PlacedToken → Except HostError (List Word)
  | _, [] => .ok []
  | _, (.word "", _) :: _ => .ok []
  | 0, ts => unexpected ts
  | fuel + 1, ts => do
    let (w, rest) ← takeInstr t ts
    let ws ← assembleFuel t fuel rest
    .ok (w :: ws)

/-- A program from its tokens (R116): every instruction takes a token, so there are no more instructions than tokens. -/
def assemble (t : List TableEntry) (ts : List Token) : Except HostError (List Word) :=
  assembleFuel t ts.length ts.zipIdx

/-! ## Disassembly (R117) -/

/-- `$` and the decimal number (R117). -/
def regText (r : Reg) : String := "$" ++ Nat.repr r.val

/-- A signed decimal number (R117). -/
def intText (z : Int) : String := if z < 0 then "-" ++ Nat.repr z.natAbs else Nat.repr z.natAbs

/-- Mnemonic, one space, operands separated by a comma and a space (R117). -/
def lineText (m : Mnemonic) (operands : List String) : String :=
  match operands with
  | [] => mnemonicText m
  | _ :: _ => mnemonicText m ++ " " ++ ", ".intercalate operands

/-- The address operand `imm($s)` with no spaces (R117). -/
def addressText (imm : Int) (rs : Reg) : String := intText imm ++ "(" ++ regText rs ++ ")"

/-- The text of an instruction (R117, R115, decision D27; log entry 30). That `open`, `rfrk` and `rsw` are printed as the
bare mnemonic is the model's choice (DESIGN CHOICE, log entry 38): R117 names only `hlt` and `syscall` as having no
operands. -/
def instrText (i : Instr) : String :=
  match i with
  | .sllv rd rt rs => lineText .sllv [regText rd, regText rt, regText rs]
  | .srlv rd rt rs => lineText .srlv [regText rd, regText rt, regText rs]
  | .jr rs => lineText .jr [regText rs]
  | .syscall => lineText .syscall []
  | .hlt => lineText .hlt []
  | .mult rs rt => lineText .mult [regText rs, regText rt]
  | .divu rs rt => lineText .divu [regText rs, regText rt]
  | .sub rd rs rt => lineText .sub [regText rd, regText rs, regText rt]
  | .xor rd rs rt => lineText .xor [regText rd, regText rs, regText rt]
  | .slt rd rs rt => lineText .slt [regText rd, regText rs, regText rt]
  | .blez rs imm => lineText .blez [regText rs, intText imm]
  | .bgez rs imm => lineText .bgez [regText rs, intText imm]
  | .j target => lineText .j [intText target]
  | .bne rs rt imm => lineText .bne [regText rs, regText rt, intText imm]
  | .slti rt rs imm => lineText .slti [regText rt, regText rs, intText imm]
  | .andi rt rs imm => lineText .andi [regText rt, regText rs, intText imm]
  | .frk rt => lineText .frk [regText rt]
  | .opn => lineText .opn []
  | .rfrk => lineText .rfrk []
  | .rsw => lineText .rsw []
  | .lw rt rs imm => lineText .lw [regText rt, addressText imm rs]
  | .sw rt rs imm => lineText .sw [regText rt, addressText imm rs]

/-- `decode(word) -> text`, none for an unknown word (R100, R117). -/
def disassemble (t : List TableEntry) (w : Word) : Option String := (resolveIn t w).map instrText

/-- What a table's error is to the host: a range error for a value outside 0 to 63, else a malformed table (R286). -/
def tableHostError : TableError → HostError
  | .range value place => .range (.num value, place)
  | .name text place => .badTable (.name text place)
  | .entry e => .badTable (.entry e)
  | .repeated e => .badTable (.repeated e)
  | .noHlt => .badTable .noHlt

/-- A raw table, loaded: refused with the reason unless it is in range and well formed (R99, R119, R286). -/
def loadTable (raw : List (String × Int × Int)) : Except HostError (List TableEntry) :=
  (readTable raw).mapError tableHostError

end Sys2Proof.Machine
end

