-- ==== Sys2Proof/Laws/Assembly.lean ====
section
/-! SUPPORT. What the table loader and the operand helpers of the assembler can answer, said once (30_encoding.md R99, R114,
R119). -/

namespace Sys2Proof

/-- No entry is repeated exactly when keys and names are all different (W1). -/
theorem repeatedEntry_eq_none (t : List TableEntry) :
    repeatedEntry t = none ↔ (t.map entryKey).Nodup ∧ (t.map TableEntry.name).Nodup := by
  induction t with
  | nil => simp [repeatedEntry]
  | cons e rest ih =>
    simp only [repeatedEntry, List.map_cons, List.nodup_cons]
    split
    · next h =>
      simp only [List.any_eq_true, Bool.or_eq_true, beq_iff_eq] at h
      obtain ⟨e', hm, hk | hn⟩ := h
      · simp only [reduceCtorEq, false_iff]
        exact fun hc => hc.1.1 (List.mem_map.mpr ⟨e', hm, hk⟩)
      · simp only [reduceCtorEq, false_iff]
        exact fun hc => hc.2.1 (List.mem_map.mpr ⟨e', hm, hn⟩)
    · next h =>
      simp only [List.any_eq_true, Bool.or_eq_true, beq_iff_eq, not_exists, not_and, not_or] at h
      rw [ih]
      have hk : entryKey e ∉ rest.map entryKey := fun hc => by
        obtain ⟨e', hm, he⟩ := List.mem_map.mp hc
        exact (h e' hm).1 he
      have hn : e.name ∉ rest.map TableEntry.name := fun hc => by
        obtain ⟨e', hm, he⟩ := List.mem_map.mp hc
        exact (h e' hm).2 he
      simp only [hk, hn, not_false_eq_true, true_and]

/-- A table has no defect exactly when it is well formed (R99). -/
theorem tableDefect_eq_none (t : List TableEntry) : tableDefect t = none ↔ tableOk t = true := by
  have hf : t.find? (fun e => !entryOk e) = none ↔ t.all entryOk = true := by simp
  simp only [tableOk, Bool.and_eq_true, decide_eq_true_eq, ← hf, and_assoc]
  unfold tableDefect
  cases h1 : t.find? (fun e => !entryOk e) with
  | some e => simp
  | none =>
    have h2 := repeatedEntry_eq_none t
    cases h3 : repeatedEntry t with
    | some e =>
      rw [h3] at h2
      simp only [reduceCtorEq, false_iff] at h2
      simp only [reduceCtorEq, false_iff]
      tauto
    | none =>
      rw [h3] at h2
      have h4 := h2.mp rfl
      by_cases h5 : (⟨.hlt, 0, 13⟩ : TableEntry) ∈ t
      · simp [h4, h5]
      · simp [h5]

/-- A table that is read is well formed. -/
theorem readTable_ok {raw : List (String × Int × Int)} {t : List TableEntry} (h : readTable raw = .ok t) :
    readEntries 0 raw = .ok t ∧ tableOk t = true := by
  unfold readTable at h
  cases he : readEntries 0 raw with
  | error x => rw [he] at h; cases h
  | ok u =>
    rw [he] at h
    change (tableDefect u).elim (Except.ok u) Except.error = Except.ok t at h
    cases hd : tableDefect u with
    | some x => rw [hd] at h; cases h
    | none => rw [hd] at h; cases h; exact ⟨rfl, (tableDefect_eq_none _).mp hd⟩

namespace Machine

/-- A register argument that is taken is a token `$n` with `n` from 0 to 31. -/
theorem takeReg_ok {ts rest : List PlacedToken} {r : Reg} (h : takeReg ts = .ok (r, rest)) :
    ∃ place, ts = (.reg r.val, place) :: rest := by
  unfold takeReg at h
  split at h
  · next n place tail =>
    split at h
    · next hn =>
      cases h
      refine ⟨place, ?_⟩
      have : ((Fin.ofNat 32 n.toNat).val : Int) = n := by simp only [Fin.ofNat]; omega
      rw [this]
    · cases h
  · cases h

/-- A number that is taken is a number token inside its range. -/
theorem takeNum_ok {lo hi z : Int} {ts rest : List PlacedToken} (h : takeNum lo hi ts = .ok (z, rest)) :
    lo ≤ z ∧ z ≤ hi ∧ ∃ place, ts = (.num z, place) :: rest := by
  unfold takeNum at h
  split at h
  · split at h
    · next hz => cases h; exact ⟨hz.1, hz.2, _, rfl⟩
    · cases h
  · cases h

/-- Punctuation that is taken is the expected token. -/
theorem takeToken_ok {t : Token} {ts rest : List PlacedToken} (h : takeToken t ts = .ok rest) :
    ∃ place, ts = (t, place) :: rest := by
  unfold takeToken at h
  split at h
  · split at h
    · next hu => cases h; exact ⟨_, by rw [hu]⟩
    · cases h
  · cases h

end Machine

end Sys2Proof
end

