-- ==== Sys2Proof/Laws/Decode.lean ====
section
/-! SUPPORT. The fields of a packed word are the fields it was packed from (30_encoding.md R91 to R94), and the readings
of the immediate fields. -/

namespace Sys2Proof

theorem packR_fields {op rs rt rd sh fn : Nat} (h1 : op ≤ 63) (h2 : rs < 32) (h3 : rt < 32) (h4 : rd < 32)
    (h5 : sh < 32) (h6 : fn ≤ 63) :
    opcodeField (packR op rs rt rd sh fn) = op ∧ bits (packR op rs rt rd sh fn) 25 21 = rs ∧
    bits (packR op rs rt rd sh fn) 20 16 = rt ∧ bits (packR op rs rt rd sh fn) 15 11 = rd ∧
    shamtField (packR op rs rt rd sh fn) = sh ∧ functField (packR op rs rt rd sh fn) = fn := by
  simp only [opcodeField, shamtField, functField, bits, packR, BitVec.toNat_ofNat]
  refine ⟨?_, ?_, ?_, ?_, ?_, ?_⟩ <;> norm_num <;> omega

theorem packI_fields {op rs rt imm : Nat} (h1 : op ≤ 63) (h2 : rs < 32) (h3 : rt < 32) (h4 : imm < 65536) :
    opcodeField (packI op rs rt imm) = op ∧ bits (packI op rs rt imm) 25 21 = rs ∧
    bits (packI op rs rt imm) 20 16 = rt ∧ bits (packI op rs rt imm) 15 0 = imm := by
  simp only [opcodeField, bits, packI, BitVec.toNat_ofNat]
  refine ⟨?_, ?_, ?_, ?_⟩ <;> norm_num <;> omega

theorem packJ_fields {op target : Nat} (h1 : op ≤ 63) (h2 : target < 67108864) :
    opcodeField (packJ op target) = op ∧ bits (packJ op target) 25 0 = target := by
  simp only [opcodeField, bits, packJ, BitVec.toNat_ofNat]
  refine ⟨?_, ?_⟩ <;> norm_num <;> omega

theorem immBits_lt (z : Int) : immBits z < 65536 := by
  unfold immBits
  omega

theorem targetBits_lt (z : Int) : targetBits z < 67108864 := by
  unfold targetBits
  omega

/-- A signed 16-bit value is what its field sign-extends to. -/
theorem sext_immBits {z : Int} (h : signed16 z = true) : sext 16 (immBits z) = z := by
  simp only [signed16, Bool.and_eq_true, decide_eq_true_eq] at h
  unfold sext immBits
  split <;> norm_num at * <;> omega

/-- A signed 26-bit value is what its field sign-extends to. -/
theorem sext_targetBits {z : Int} (h : signed26 z = true) : sext 26 (targetBits z) = z := by
  simp only [signed26, Bool.and_eq_true, decide_eq_true_eq] at h
  unfold sext targetBits
  split <;> norm_num at * <;> omega

theorem reg_ofNat_val (r : Reg) : Fin.ofNat 32 r.val = r := by
  apply Fin.ext
  simp

/-- What a well-formed entry satisfies (R98, R99). -/
theorem entryOk_spec {e : TableEntry} (h : entryOk e = true) :
    e.opcode ≤ 63 ∧ e.second ≤ 63 ∧ (e.opcode = 1 → e.second ≤ 31 ∧ e.name.rtFree = true) ∧
    (e.name.format = .R ↔ e.opcode = 0) := by
  simp only [entryOk, Bool.and_eq_true, decide_eq_true_eq, Bool.or_eq_true] at h
  obtain ⟨⟨⟨⟨h1, h2⟩, h3⟩, h4⟩, h5⟩ := h
  refine ⟨h1, h2, fun h => ⟨by simpa [h] using h3, by simpa [h] using h5⟩, ?_⟩
  cases hf : e.name.format <;> simp [hf] at h4 ⊢ <;> omega

theorem rtSelector_lt {e : TableEntry} (h : entryOk e = true) : rtSelector e < 32 := by
  obtain ⟨-, -, h3, -⟩ := entryOk_spec h
  unfold rtSelector
  split
  · next h1 => have := (h3 h1).1; omega
  · omega

end Sys2Proof
end

