-- ==== Sys2Proof/Laws/State.lean ====
section
/-! SUPPORT. One lemma per field per update of the machine's records, each true by unfolding the update once, so that no
later proof unfolds a record update. -/

namespace Sys2Proof.Machine

/-! ## Updates of a process -/

@[simp] theorem Process.kill_x (p : Process) : (p.kill).x = p.x := rfl
@[simp] theorem Process.kill_pc (p : Process) : (p.kill).pc = p.pc := rfl
@[simp] theorem Process.kill_hi (p : Process) : (p.kill).hi = p.hi := rfl
@[simp] theorem Process.kill_lo (p : Process) : (p.kill).lo = p.lo := rfl
@[simp] theorem Process.kill_alive (p : Process) : (p.kill).alive = false := rfl
@[simp] theorem Process.kill_id (p : Process) : (p.kill).id = p.id := rfl
@[simp] theorem Process.kill_player (p : Process) : (p.kill).player = p.player := rfl
@[simp] theorem Process.kill_prog (p : Process) : (p.kill).prog = p.prog := rfl

@[simp] theorem Process.setPc_x (p : Process) (v : Word) : (p.setPc v).x = p.x := rfl
@[simp] theorem Process.setPc_pc (p : Process) (v : Word) : (p.setPc v).pc = v := rfl
@[simp] theorem Process.setPc_hi (p : Process) (v : Word) : (p.setPc v).hi = p.hi := rfl
@[simp] theorem Process.setPc_lo (p : Process) (v : Word) : (p.setPc v).lo = p.lo := rfl
@[simp] theorem Process.setPc_alive (p : Process) (v : Word) : (p.setPc v).alive = p.alive := rfl
@[simp] theorem Process.setPc_id (p : Process) (v : Word) : (p.setPc v).id = p.id := rfl
@[simp] theorem Process.setPc_player (p : Process) (v : Word) : (p.setPc v).player = p.player := rfl
@[simp] theorem Process.setPc_prog (p : Process) (v : Word) : (p.setPc v).prog = p.prog := rfl

@[simp] theorem Process.setHiLo_x (p : Process) (h l : Word) : (p.setHiLo h l).x = p.x := rfl
@[simp] theorem Process.setHiLo_pc (p : Process) (h l : Word) : (p.setHiLo h l).pc = p.pc := rfl
@[simp] theorem Process.setHiLo_hi (p : Process) (h l : Word) : (p.setHiLo h l).hi = h := rfl
@[simp] theorem Process.setHiLo_lo (p : Process) (h l : Word) : (p.setHiLo h l).lo = l := rfl
@[simp] theorem Process.setHiLo_alive (p : Process) (h l : Word) : (p.setHiLo h l).alive = p.alive := rfl
@[simp] theorem Process.setHiLo_id (p : Process) (h l : Word) : (p.setHiLo h l).id = p.id := rfl
@[simp] theorem Process.setHiLo_player (p : Process) (h l : Word) : (p.setHiLo h l).player = p.player := rfl
@[simp] theorem Process.setHiLo_prog (p : Process) (h l : Word) : (p.setHiLo h l).prog = p.prog := rfl

@[simp] theorem Process.advance_x (p : Process) : (p.advance).x = p.x := rfl
@[simp] theorem Process.advance_pc (p : Process) : (p.advance).pc = addOffset p.pc 1 := rfl
@[simp] theorem Process.advance_hi (p : Process) : (p.advance).hi = p.hi := rfl
@[simp] theorem Process.advance_lo (p : Process) : (p.advance).lo = p.lo := rfl
@[simp] theorem Process.advance_alive (p : Process) : (p.advance).alive = p.alive := rfl
@[simp] theorem Process.advance_id (p : Process) : (p.advance).id = p.id := rfl
@[simp] theorem Process.advance_player (p : Process) : (p.advance).player = p.player := rfl
@[simp] theorem Process.advance_prog (p : Process) : (p.advance).prog = p.prog := rfl

@[simp] theorem Process.jumpBy_x (p : Process) (z : Int) : (p.jumpBy z).x = p.x := rfl
@[simp] theorem Process.jumpBy_pc (p : Process) (z : Int) : (p.jumpBy z).pc = addOffset p.pc z := rfl
@[simp] theorem Process.jumpBy_hi (p : Process) (z : Int) : (p.jumpBy z).hi = p.hi := rfl
@[simp] theorem Process.jumpBy_lo (p : Process) (z : Int) : (p.jumpBy z).lo = p.lo := rfl
@[simp] theorem Process.jumpBy_alive (p : Process) (z : Int) : (p.jumpBy z).alive = p.alive := rfl
@[simp] theorem Process.jumpBy_id (p : Process) (z : Int) : (p.jumpBy z).id = p.id := rfl
@[simp] theorem Process.jumpBy_player (p : Process) (z : Int) : (p.jumpBy z).player = p.player := rfl
@[simp] theorem Process.jumpBy_prog (p : Process) (z : Int) : (p.jumpBy z).prog = p.prog := rfl

@[simp] theorem Process.write_pc (p : Process) (i : Reg) (v : Word) : (p.write i v).pc = p.pc := by
  unfold Process.write; split <;> rfl
@[simp] theorem Process.write_hi (p : Process) (i : Reg) (v : Word) : (p.write i v).hi = p.hi := by
  unfold Process.write; split <;> rfl
@[simp] theorem Process.write_lo (p : Process) (i : Reg) (v : Word) : (p.write i v).lo = p.lo := by
  unfold Process.write; split <;> rfl
@[simp] theorem Process.write_alive (p : Process) (i : Reg) (v : Word) : (p.write i v).alive = p.alive := by
  unfold Process.write; split <;> rfl
@[simp] theorem Process.write_id (p : Process) (i : Reg) (v : Word) : (p.write i v).id = p.id := by
  unfold Process.write; split <;> rfl
@[simp] theorem Process.write_player (p : Process) (i : Reg) (v : Word) : (p.write i v).player = p.player := by
  unfold Process.write; split <;> rfl
@[simp] theorem Process.write_prog (p : Process) (i : Reg) (v : Word) : (p.write i v).prog = p.prog := by
  unfold Process.write; split <;> rfl
@[simp] theorem Process.branch_x (p : Process) (b : Bool) (z : Int) : (p.branch b z).x = p.x := by
  unfold Process.branch; split <;> rfl
@[simp] theorem Process.branch_hi (p : Process) (b : Bool) (z : Int) : (p.branch b z).hi = p.hi := by
  unfold Process.branch; split <;> rfl
@[simp] theorem Process.branch_lo (p : Process) (b : Bool) (z : Int) : (p.branch b z).lo = p.lo := by
  unfold Process.branch; split <;> rfl
@[simp] theorem Process.branch_alive (p : Process) (b : Bool) (z : Int) : (p.branch b z).alive = p.alive := by
  unfold Process.branch; split <;> rfl
@[simp] theorem Process.branch_id (p : Process) (b : Bool) (z : Int) : (p.branch b z).id = p.id := by
  unfold Process.branch; split <;> rfl
@[simp] theorem Process.branch_player (p : Process) (b : Bool) (z : Int) : (p.branch b z).player = p.player := by
  unfold Process.branch; split <;> rfl
@[simp] theorem Process.branch_prog (p : Process) (b : Bool) (z : Int) : (p.branch b z).prog = p.prog := by
  unfold Process.branch; split <;> rfl

theorem Process.branch_pc (p : Process) (b : Bool) (z : Int) :
    (p.branch b z).pc = if b then addOffset p.pc z else addOffset p.pc 1 := by
  unfold Process.branch; split <;> rfl

@[simp] theorem Process.kill_read (p : Process) (k : Reg) : (p.kill).read k = p.read k := rfl
@[simp] theorem Process.setPc_read (p : Process) (v : Word) (k : Reg) : (p.setPc v).read k = p.read k := rfl
@[simp] theorem Process.setHiLo_read (p : Process) (h l : Word) (k : Reg) : (p.setHiLo h l).read k = p.read k := rfl
@[simp] theorem Process.advance_read (p : Process) (k : Reg) : (p.advance).read k = p.read k := rfl
@[simp] theorem Process.jumpBy_read (p : Process) (z : Int) (k : Reg) : (p.jumpBy z).read k = p.read k := rfl

@[simp] theorem Process.branch_read (p : Process) (b : Bool) (z : Int) (k : Reg) :
    (p.branch b z).read k = p.read k := by
  unfold Process.branch; split <;> rfl

/-! ## The register file (10_state.md R27) -/

@[simp] theorem Process.read_zero (p : Process) : p.read 0 = 0#32 := rfl

@[simp] theorem Process.write_zero (p : Process) (v : Word) : p.write 0 v = p := rfl

theorem Process.write_read_self (p : Process) (i : Reg) (v : Word) (h : i ≠ 0) : (p.write i v).read i = v := by
  simp [Process.write, Process.read, h]

theorem Process.write_read_other (p : Process) (i k : Reg) (v : Word) (h : k ≠ i) :
    (p.write i v).read k = p.read k := by
  unfold Process.write
  split
  · rfl
  · by_cases hk : k = 0
    · simp [Process.read, hk]
    · have : (i : Nat) ≠ k := fun e => h (Fin.ext e.symm)
      simp [Process.read, hk, this]

/-- What a register reads as after a write, in one statement. -/
theorem Process.write_read (p : Process) (i k : Reg) (v : Word) :
    (p.write i v).read k = if k = i then (if i = 0 then 0#32 else v) else p.read k := by
  by_cases h : k = i
  · subst h
    by_cases h0 : k = 0
    · subst h0; simp
    · simp [h0, Process.write_read_self]
  · simp [h, Process.write_read_other]

/-- Slot 0 of the register file is never written. -/
theorem Process.write_x_zero (p : Process) (i : Reg) (v : Word) : (p.write i v).x[0] = p.x[0] := by
  unfold Process.write
  split
  · rfl
  · next h =>
    have : (i : Nat) ≠ 0 := fun e => h (Fin.ext e)
    simp [this]

/-! ## A fresh process -/

@[simp] theorem Process.fresh_x (a : Word) (i k : Nat) (l : List Word) :
    (Process.fresh a i k l).x = Vector.replicate 32 0#32 := rfl
@[simp] theorem Process.fresh_pc (a : Word) (i k : Nat) (l : List Word) : (Process.fresh a i k l).pc = a := rfl
@[simp] theorem Process.fresh_hi (a : Word) (i k : Nat) (l : List Word) : (Process.fresh a i k l).hi = 0#32 := rfl
@[simp] theorem Process.fresh_lo (a : Word) (i k : Nat) (l : List Word) : (Process.fresh a i k l).lo = 0#32 := rfl
@[simp] theorem Process.fresh_alive (a : Word) (i k : Nat) (l : List Word) :
    (Process.fresh a i k l).alive = true := rfl
@[simp] theorem Process.fresh_id (a : Word) (i k : Nat) (l : List Word) : (Process.fresh a i k l).id = i := rfl
@[simp] theorem Process.fresh_player (a : Word) (i k : Nat) (l : List Word) :
    (Process.fresh a i k l).player = k := rfl
@[simp] theorem Process.fresh_prog (a : Word) (i k : Nat) (l : List Word) : (Process.fresh a i k l).prog = l := rfl

@[simp] theorem Process.fresh_read (a : Word) (i k : Nat) (l : List Word) (r : Reg) :
    (Process.fresh a i k l).read r = 0#32 := by
  simp [Process.fresh, Process.read]

/-! ## Updates of a group -/

@[simp] theorem Group.setProc_player (g : Group) (i : Nat) (p : Process) : (g.setProc i p).player = g.player := rfl
@[simp] theorem Group.setProc_procs (g : Group) (i : Nat) (p : Process) :
    (g.setProc i p).procs = g.procs.set i p := rfl
@[simp] theorem Group.setProc_pcur (g : Group) (i : Nat) (p : Process) : (g.setProc i p).pcur = g.pcur := rfl
@[simp] theorem Group.setProc_last (g : Group) (i : Nat) (p : Process) : (g.setProc i p).last = g.last := rfl

@[simp] theorem Group.addProc_player (g : Group) (p : Process) : (g.addProc p).player = g.player := rfl
@[simp] theorem Group.addProc_procs (g : Group) (p : Process) : (g.addProc p).procs = g.procs ++ [p] := rfl
@[simp] theorem Group.addProc_pcur (g : Group) (p : Process) : (g.addProc p).pcur = g.pcur := rfl
@[simp] theorem Group.addProc_last (g : Group) (p : Process) : (g.addProc p).last = g.last := rfl

@[simp] theorem Group.served_player (g : Group) (i : Nat) : (g.served i).player = g.player := rfl
@[simp] theorem Group.served_procs (g : Group) (i : Nat) : (g.served i).procs = g.procs := rfl
@[simp] theorem Group.served_pcur (g : Group) (i : Nat) : (g.served i).pcur = (i + 1) % g.procs.length := rfl
@[simp] theorem Group.served_last (g : Group) (i : Nat) : (g.served i).last = some i := rfl

@[simp] theorem Group.fresh_player (k : Nat) : (Group.fresh k).player = k := rfl
@[simp] theorem Group.fresh_procs (k : Nat) : (Group.fresh k).procs = [] := rfl
@[simp] theorem Group.fresh_pcur (k : Nat) : (Group.fresh k).pcur = 0 := rfl
@[simp] theorem Group.fresh_last (k : Nat) : (Group.fresh k).last = none := rfl

/-! ## Updates of the machine -/

@[simp] theorem State.memWrite_coreSize (s : State) (a : Int) (v : Word) (o : OwnerTag) :
    (s.memWrite a v o).coreSize = s.coreSize := rfl
@[simp] theorem State.memWrite_core (s : State) (a : Int) (v : Word) (o : OwnerTag) :
    (s.memWrite a v o).core = Memory.write s.core a.toNat ⟨v, some o⟩ := rfl
@[simp] theorem State.memWrite_groups (s : State) (a : Int) (v : Word) (o : OwnerTag) :
    (s.memWrite a v o).groups = s.groups := rfl
@[simp] theorem State.memWrite_gcur (s : State) (a : Int) (v : Word) (o : OwnerTag) :
    (s.memWrite a v o).gcur = s.gcur := rfl
@[simp] theorem State.memWrite_draws (s : State) (a : Int) (v : Word) (o : OwnerTag) :
    (s.memWrite a v o).draws = s.draws := rfl

@[simp] theorem State.modifyGroup_coreSize (s : State) (i : Nat) (f : Group → Group) :
    (s.modifyGroup i f).coreSize = s.coreSize := rfl
@[simp] theorem State.modifyGroup_core (s : State) (i : Nat) (f : Group → Group) :
    (s.modifyGroup i f).core = s.core := rfl
@[simp] theorem State.modifyGroup_groups (s : State) (i : Nat) (f : Group → Group) :
    (s.modifyGroup i f).groups = s.groups.modify i f := rfl
@[simp] theorem State.modifyGroup_gcur (s : State) (i : Nat) (f : Group → Group) :
    (s.modifyGroup i f).gcur = s.gcur := rfl
@[simp] theorem State.modifyGroup_draws (s : State) (i : Nat) (f : Group → Group) :
    (s.modifyGroup i f).draws = s.draws := rfl

@[simp] theorem State.setProc_coreSize (s : State) (i n : Nat) (p : Process) :
    (s.setProc i n p).coreSize = s.coreSize := rfl
@[simp] theorem State.setProc_core (s : State) (i n : Nat) (p : Process) : (s.setProc i n p).core = s.core := rfl
@[simp] theorem State.setProc_groups (s : State) (i n : Nat) (p : Process) :
    (s.setProc i n p).groups = s.groups.modify i (fun g => g.setProc n p) := rfl
@[simp] theorem State.setProc_gcur (s : State) (i n : Nat) (p : Process) : (s.setProc i n p).gcur = s.gcur := rfl
@[simp] theorem State.setProc_draws (s : State) (i n : Nat) (p : Process) : (s.setProc i n p).draws = s.draws := rfl

@[simp] theorem State.addProc_coreSize (s : State) (i : Nat) (p : Process) :
    (s.addProc i p).coreSize = s.coreSize := rfl
@[simp] theorem State.addProc_core (s : State) (i : Nat) (p : Process) : (s.addProc i p).core = s.core := rfl
@[simp] theorem State.addProc_groups (s : State) (i : Nat) (p : Process) :
    (s.addProc i p).groups = s.groups.modify i (fun g => g.addProc p) := rfl
@[simp] theorem State.addProc_gcur (s : State) (i : Nat) (p : Process) : (s.addProc i p).gcur = s.gcur := rfl
@[simp] theorem State.addProc_draws (s : State) (i : Nat) (p : Process) : (s.addProc i p).draws = s.draws := rfl

@[simp] theorem State.killRunning_coreSize (s : State) (r : Running) : (s.killRunning r).coreSize = s.coreSize := rfl
@[simp] theorem State.killRunning_core (s : State) (r : Running) : (s.killRunning r).core = s.core := rfl
@[simp] theorem State.killRunning_groups (s : State) (r : Running) :
    (s.killRunning r).groups = s.groups.modify r.group (fun g => g.setProc r.proc r.p.kill.advance) := rfl
@[simp] theorem State.killRunning_gcur (s : State) (r : Running) : (s.killRunning r).gcur = s.gcur := rfl
@[simp] theorem State.killRunning_draws (s : State) (r : Running) : (s.killRunning r).draws = s.draws := rfl

@[simp] theorem State.answer_coreSize (s : State) (r : Running) (v : Int) :
    (s.answer r v).coreSize = s.coreSize := rfl
@[simp] theorem State.answer_core (s : State) (r : Running) (v : Int) : (s.answer r v).core = s.core := rfl
@[simp] theorem State.answer_groups (s : State) (r : Running) (v : Int) :
    (s.answer r v).groups = s.groups.modify r.group (fun g => g.setProc r.proc (r.p.write 1 (w32 v)).advance) := rfl
@[simp] theorem State.answer_gcur (s : State) (r : Running) (v : Int) : (s.answer r v).gcur = s.gcur := rfl
@[simp] theorem State.answer_draws (s : State) (r : Running) (v : Int) : (s.answer r v).draws = s.draws := rfl

@[simp] theorem State.drawn_coreSize (s : State) : (s.drawn).coreSize = s.coreSize := rfl
@[simp] theorem State.drawn_core (s : State) : (s.drawn).core = s.core := rfl
@[simp] theorem State.drawn_groups (s : State) : (s.drawn).groups = s.groups := rfl
@[simp] theorem State.drawn_gcur (s : State) : (s.drawn).gcur = s.gcur := rfl
@[simp] theorem State.drawn_draws (s : State) : (s.drawn).draws = s.draws + 1 := rfl

@[simp] theorem State.rotate_coreSize (s : State) : (s.rotate).coreSize = s.coreSize := rfl
@[simp] theorem State.rotate_core (s : State) : (s.rotate).core = s.core := rfl
@[simp] theorem State.rotate_groups (s : State) : (s.rotate).groups = s.groups := rfl
@[simp] theorem State.rotate_gcur (s : State) : (s.rotate).gcur = (s.gcur + 1) % s.groups.length := rfl
@[simp] theorem State.rotate_draws (s : State) : (s.rotate).draws = s.draws := rfl

@[simp] theorem State.afterRun_coreSize (s : State) (r : Running) : (s.afterRun r).coreSize = s.coreSize := rfl
@[simp] theorem State.afterRun_core (s : State) (r : Running) : (s.afterRun r).core = s.core := rfl
@[simp] theorem State.afterRun_groups (s : State) (r : Running) :
    (s.afterRun r).groups = s.groups.modify r.group (fun g => g.served r.proc) := rfl
@[simp] theorem State.afterRun_gcur (s : State) (r : Running) :
    (s.afterRun r).gcur = (s.gcur + 1) % (s.groups.modify r.group (fun g => g.served r.proc)).length := rfl
@[simp] theorem State.afterRun_draws (s : State) (r : Running) : (s.afterRun r).draws = s.draws := rfl

@[simp] theorem State.ofSize_coreSize (n : Nat) : (State.ofSize n).coreSize = n := rfl
@[simp] theorem State.ofSize_core (n : Nat) : (State.ofSize n).core = [] := rfl
@[simp] theorem State.ofSize_groups (n : Nat) : (State.ofSize n).groups = [] := rfl
@[simp] theorem State.ofSize_gcur (n : Nat) : (State.ofSize n).gcur = 0 := rfl
@[simp] theorem State.ofSize_draws (n : Nat) : (State.ofSize n).draws = 0 := rfl

end Sys2Proof.Machine
end

