-- ==== Sys2Proof/Laws/Memory.lean ====
section
/-! SUPPORT. The core as a sparse list in canonical form: reading after writing, and that every write keeps the form. -/

namespace Sys2Proof.Machine

theorem Memory.read_cons_self (a : Nat) (c : Cell) (m : Memory) (h : c ≠ Cell.unwritten) :
    Memory.read (Memory.cons a c m) a = c := by
  simp [Memory.cons, h, Memory.read]

theorem Memory.read_cons_other (a b : Nat) (c : Cell) (m : Memory) (h : b ≠ a) :
    Memory.read (Memory.cons a c m) b = Memory.read m b := by
  unfold Memory.cons
  split
  · rfl
  · simp [Memory.read, h]

/-- Writing one cell leaves every other cell alone. -/
theorem Memory.read_write_other (m : Memory) (a b : Nat) (c : Cell) (h : b ≠ a) :
    Memory.read (Memory.write m a c) b = Memory.read m b := by
  induction m with
  | nil => simp [Memory.write, Memory.read_cons_other, h]
  | cons e rest ih =>
    obtain ⟨d, v⟩ := e
    unfold Memory.write
    split
    · exact Memory.read_cons_other a b c _ h
    · split
      · next hd =>
        subst hd
        rw [Memory.read_cons_other a b c _ h]
        simp [Memory.read, h]
      · simp only [Memory.read]
        rw [ih]

/-- A written cell reads as what was written, if that is not what an unlisted address reads as. -/
theorem Memory.read_write_self (m : Memory) (a : Nat) (c : Cell) (h : c ≠ Cell.unwritten) :
    Memory.read (Memory.write m a c) a = c := by
  induction m with
  | nil => simp [Memory.write, Memory.read_cons_self, h]
  | cons e rest ih =>
    obtain ⟨d, v⟩ := e
    unfold Memory.write
    split
    · exact Memory.read_cons_self a c _ h
    · split
      · exact Memory.read_cons_self a c _ h
      · next hd => simp [Memory.read, hd, ih]

theorem Memory.wfFrom_mono {lo lo' : Nat} {m : Memory} (h : lo' ≤ lo) (hm : Memory.wfFrom lo m = true) :
    Memory.wfFrom lo' m = true := by
  cases m with
  | nil => rfl
  | cons e rest =>
    obtain ⟨a, c⟩ := e
    simp only [Memory.wfFrom, Bool.and_eq_true, decide_eq_true_eq] at hm ⊢
    exact ⟨⟨by omega, hm.1.2⟩, hm.2⟩

theorem Memory.wfFrom_cons {lo a : Nat} {c : Cell} {m : Memory} (h : lo ≤ a)
    (hm : Memory.wfFrom (a + 1) m = true) : Memory.wfFrom lo (Memory.cons a c m) = true := by
  unfold Memory.cons
  split
  · exact Memory.wfFrom_mono (by omega) hm
  · next hc => simp [Memory.wfFrom, h, hc, hm]

theorem Memory.wfFrom_write {lo a : Nat} {m : Memory} (c : Cell) (h : lo ≤ a)
    (hm : Memory.wfFrom lo m = true) : Memory.wfFrom lo (Memory.write m a c) = true := by
  induction m generalizing lo with
  | nil => exact Memory.wfFrom_cons h rfl
  | cons e rest ih =>
    obtain ⟨d, v⟩ := e
    have hm' := hm
    simp only [Memory.wfFrom, Bool.and_eq_true, decide_eq_true_eq] at hm
    unfold Memory.write
    split
    · next hlt =>
      apply Memory.wfFrom_cons h
      simp only [Memory.wfFrom, Bool.and_eq_true, decide_eq_true_eq]
      exact ⟨⟨by omega, hm.1.2⟩, hm.2⟩
    · split
      · next heq => subst heq; exact Memory.wfFrom_cons h hm.2
      · simp only [Memory.wfFrom, Bool.and_eq_true, decide_eq_true_eq]
        exact ⟨hm.1, ih (by omega) hm.2⟩

/-- Every write keeps the canonical form. -/
theorem Memory.wf_write {m : Memory} (a : Nat) (c : Cell) (hm : Memory.wf m = true) :
    Memory.wf (Memory.write m a c) = true :=
  Memory.wfFrom_write c (Nat.zero_le a) hm

/-- The reset core has the canonical form. -/
theorem Memory.wf_reset : Memory.wf State.reset.core = true := rfl

/-- In canonical form an entry is what its address reads as. -/
theorem Memory.read_of_mem {lo : Nat} {m : Memory} (hm : Memory.wfFrom lo m = true) {a : Nat} {c : Cell}
    (h : (a, c) ∈ m) : lo ≤ a ∧ c ≠ Cell.unwritten ∧ Memory.read m a = c := by
  induction m generalizing lo with
  | nil => cases h
  | cons e rest ih =>
    obtain ⟨d, v⟩ := e
    simp only [Memory.wfFrom, Bool.and_eq_true, decide_eq_true_eq] at hm
    rcases List.mem_cons.mp h with h | h
    · cases h; exact ⟨hm.1.1, hm.1.2, by simp [Memory.read]⟩
    · obtain ⟨h1, h2, h3⟩ := ih hm.2 h
      have : a ≠ d := by omega
      exact ⟨by omega, h2, by simp [Memory.read, this, h3]⟩

/-- An address that reads as a written cell is listed. -/
theorem Memory.mem_of_read {m : Memory} {a : Nat} (h : Memory.read m a ≠ Cell.unwritten) :
    (a, Memory.read m a) ∈ m := by
  induction m with
  | nil => exact absurd rfl h
  | cons e rest ih =>
    obtain ⟨d, v⟩ := e
    simp only [Memory.read] at h ⊢
    split
    · next hd => subst hd; exact List.mem_cons_self
    · next hd => rw [if_neg hd] at h; exact List.mem_cons_of_mem _ (ih h)

/-- The entries after a write: the written one, and the old ones at other addresses. -/
theorem Memory.mem_write {m : Memory} {a b : Nat} {c d : Cell} (hm : Memory.wf m = true)
    (h : (b, d) ∈ Memory.write m a c) : (b = a ∧ d = c) ∨ (b ≠ a ∧ (b, d) ∈ m) := by
  have hw := Memory.read_of_mem (Memory.wf_write a c hm) h
  by_cases hb : b = a
  · subst hb
    by_cases hc : c = Cell.unwritten
    · exfalso
      subst hc
      have : ∀ (lo : Nat) (m : Memory), Memory.wfFrom lo m = true →
          Memory.read (Memory.write m b Cell.unwritten) b = Cell.unwritten := by
        intro lo m
        induction m generalizing lo with
        | nil => intro _; rfl
        | cons e rest ih =>
          obtain ⟨x, v⟩ := e
          intro hx
          have hx' := hx
          simp only [Memory.wfFrom, Bool.and_eq_true, decide_eq_true_eq] at hx
          unfold Memory.write
          split
          · next hlt =>
            simp only [Memory.cons, if_true]
            by_contra hne
            have := Memory.read_of_mem hx' (Memory.mem_of_read hne)
            have hmem := Memory.mem_of_read hne
            rcases List.mem_cons.mp hmem with he | he
            · have : b = x := congrArg Prod.fst he
              omega
            · have := (Memory.read_of_mem hx.2 he).1
              omega
          · split
            · next heq =>
              subst heq
              simp only [Memory.cons, if_true]
              by_contra hne
              have := (Memory.read_of_mem hx.2 (Memory.mem_of_read hne)).1
              omega
            · next hne => simp [Memory.read, hne, ih _ hx.2]
      exact hw.2.1 (hw.2.2.symm.trans (this 0 m hm))
    · rw [Memory.read_write_self m b c hc] at hw
      exact Or.inl ⟨rfl, hw.2.2.symm⟩
  · refine Or.inr ⟨hb, ?_⟩
    have hr := hw.2.2
    rw [Memory.read_write_other m a b c hb] at hr
    rw [← hr]
    exact Memory.mem_of_read (by rw [hr]; exact hw.2.1)

end Sys2Proof.Machine
end

