-- ==== Sys2Proof/Laws/Ops.lean ====
section
/-! SUPPORT. What each shared operation can do, said once: the memory primitives, program placement, the process on turn,
and replacing or appending one process. -/

namespace Sys2Proof.Machine

/-! ## Addresses -/

/-- `w32(u(v) + z)` as addition of words. -/
theorem addOffset_eq (v : Word) (z : Int) : addOffset v z = v + BitVec.ofInt 32 z := by
  apply BitVec.eq_of_toInt_eq
  rw [addOffset, w32, BitVec.toInt_ofInt, BitVec.toInt_add, BitVec.toInt_ofInt, uval, BitVec.toInt_eq_toNat_bmod]
  simp

theorem addOffset_one (v : Word) : addOffset v 1 = v + 1#32 := addOffset_eq v 1

theorem State.inRange_iff (s : State) (a : Int) : s.inRange a = true ↔ 0 ≤ a ∧ a < s.coreSize := by
  simp [State.inRange]

/-! ## The memory primitives -/

theorem Cell.owned_ne_unwritten (v : Word) (o : OwnerTag) : (⟨v, some o⟩ : Cell) ≠ Cell.unwritten := by
  intro h; cases h

/-- A written cell holds the word and the tag. -/
theorem State.memWrite_read_self (s : State) (a : Int) (v : Word) (o : OwnerTag) :
    Memory.read (s.memWrite a v o).core a.toNat = ⟨v, some o⟩ :=
  Memory.read_write_self _ _ _ (Cell.owned_ne_unwritten v o)

/-- A write leaves every other cell alone. -/
theorem State.memWrite_read_other (s : State) (a : Int) (v : Word) (o : OwnerTag) (b : Nat) (h : b ≠ a.toNat) :
    Memory.read (s.memWrite a v o).core b = Memory.read s.core b :=
  Memory.read_write_other _ _ _ _ h

/-! ## Placing a program -/

theorem State.place_frame (s : State) (a : Int) (prog : List Word) (o : OwnerTag) :
    (s.place a prog o).1.coreSize = s.coreSize ∧ (s.place a prog o).1.groups = s.groups ∧
    (s.place a prog o).1.gcur = s.gcur ∧ (s.place a prog o).1.draws = s.draws := by
  induction prog generalizing s a with
  | nil => exact ⟨rfl, rfl, rfl, rfl⟩
  | cons w ws ih =>
    unfold State.place
    split
    · exact ih (s.memWrite a w o) (a + 1)
    · exact ⟨rfl, rfl, rfl, rfl⟩

@[simp] theorem State.place_coreSize (s : State) (a : Int) (prog : List Word) (o : OwnerTag) :
    (s.place a prog o).1.coreSize = s.coreSize := (s.place_frame a prog o).1

@[simp] theorem State.place_groups (s : State) (a : Int) (prog : List Word) (o : OwnerTag) :
    (s.place a prog o).1.groups = s.groups := (s.place_frame a prog o).2.1

@[simp] theorem State.place_gcur (s : State) (a : Int) (prog : List Word) (o : OwnerTag) :
    (s.place a prog o).1.gcur = s.gcur := (s.place_frame a prog o).2.2.1

@[simp] theorem State.place_draws (s : State) (a : Int) (prog : List Word) (o : OwnerTag) :
    (s.place a prog o).1.draws = s.draws := (s.place_frame a prog o).2.2.2

/-- Every word is written exactly when the program ends inside the core. -/
theorem State.place_fits (s : State) (a : Int) (prog : List Word) (o : OwnerTag) (ha : 0 ≤ a)
    (hp : a ≤ s.coreSize) : (s.place a prog o).2 = decide (a + prog.length ≤ s.coreSize) := by
  induction prog generalizing s a with
  | nil => simp [State.place, hp]
  | cons w ws ih =>
    unfold State.place
    split
    · next h =>
      rw [State.inRange_iff] at h
      rw [ih (s.memWrite a w o) (a + 1) (by omega) (by simp; omega)]
      simp only [State.memWrite_coreSize, List.length_cons]
      congr 1
      apply propext
      constructor <;> intro h <;> push_cast at * <;> omega
    · next h =>
      rw [State.inRange_iff] at h
      simp only [List.length_cons]
      symm
      rw [decide_eq_false_iff_not]
      push_cast
      omega

/-- A placed cell, as far as the core reaches: the program's word with the tag. -/
theorem State.place_read_in (s : State) (a : Int) (prog : List Word) (o : OwnerTag) (ha : 0 ≤ a) {i : Nat} {w : Word}
    (hw : prog[i]? = some w) (hi : a.toNat + i < s.coreSize) :
    Memory.read (s.place a prog o).1.core (a.toNat + i) = ⟨w, some o⟩ := by
  induction prog generalizing s a i with
  | nil => simp at hw
  | cons v vs ih =>
    unfold State.place
    rw [if_pos ((State.inRange_iff s a).mpr (by omega))]
    have hnext : (a + 1).toNat = a.toNat + 1 := by omega
    cases i with
    | zero =>
      have hv : v = w := by simpa using hw
      subst hv
      have hout : ∀ (vs : List Word) (t : State) (b : Int), 0 ≤ b → a < b →
          Memory.read (t.place b vs o).1.core a.toNat = Memory.read t.core a.toNat := by
        intro vs
        induction vs with
        | nil => intro t b _ _; rfl
        | cons u us ihu =>
          intro t b hb hab
          unfold State.place
          split
          · rw [ihu (t.memWrite b u o) (b + 1) (by omega) (by omega)]
            exact State.memWrite_read_other _ _ _ _ _ (by omega)
          · rfl
      rw [Nat.add_zero, hout vs _ (a + 1) (by omega) (by omega), State.memWrite_read_self]
    | succ i =>
      have := ih (s.memWrite a v o) (a + 1) (by omega) (i := i) (by simpa using hw)
        (by simp only [State.memWrite_coreSize]; omega)
      rw [hnext] at this
      rw [← this]
      congr 1
      omega

/-- Every cell outside the program's reads as before. -/
theorem State.place_read_out (s : State) (a : Int) (prog : List Word) (o : OwnerTag) (ha : 0 ≤ a) (b : Nat)
    (hb : b < a.toNat ∨ a.toNat + prog.length ≤ b ∨ s.coreSize ≤ b) :
    Memory.read (s.place a prog o).1.core b = Memory.read s.core b := by
  induction prog generalizing s a with
  | nil => rfl
  | cons v vs ih =>
    unfold State.place
    split
    · next h =>
      rw [State.inRange_iff] at h
      rw [List.length_cons] at hb
      rw [ih (s.memWrite a v o) (a + 1) (by omega) (by simp only [State.memWrite_coreSize]; omega)]
      exact State.memWrite_read_other _ _ _ _ _ (by omega)
    · rfl

theorem State.place_wf (s : State) (a : Int) (prog : List Word) (o : OwnerTag) (h : Memory.wf s.core = true) :
    Memory.wf (s.place a prog o).1.core = true := by
  induction prog generalizing s a with
  | nil => exact h
  | cons w ws ih =>
    unfold State.place
    split
    · exact ih _ _ (Memory.wf_write _ _ h)
    · exact h

/-! ## The process on turn -/

theorem Group.pick_spec {g : Group} {i : Nat} (h : g.pick = some i) : i < g.procs.length ∧ g.aliveAt i = true := by
  have hm := List.mem_of_find?_eq_some h
  rw [List.mem_map] at hm
  obtain ⟨k, hk, rfl⟩ := hm
  rw [List.mem_range] at hk
  exact ⟨Nat.mod_lt _ (by omega), by simpa using List.find?_some h⟩

/-- Everything that `running = some r` says: `r` is the live process that the group at the cursor picks. -/
theorem State.running_spec {s : State} {r : Running} (h : s.running = some r) :
    r.group = s.gcur ∧ s.groups[r.group]? = some r.g ∧ r.g.pick = some r.proc ∧
    r.g.procs[r.proc]? = some r.p ∧ r.p.alive = true := by
  unfold State.running at h
  split at h
  · cases h
  · next g hg =>
    split at h
    · cases h
    · next i hi =>
      split at h
      · cases h
      · next p hp =>
        cases h
        refine ⟨rfl, hg, hi, hp, ?_⟩
        have := (Group.pick_spec hi).2
        simpa [Group.aliveAt, hp] using this

theorem State.running_procAt {s : State} {r : Running} (h : s.running = some r) :
    s.procAt r.group r.proc = some r.p := by
  obtain ⟨-, hg, -, hp, -⟩ := State.running_spec h
  simp [State.procAt, hg, hp]

/-- The other direction: how a process comes to be on turn. -/
theorem State.running_of {s : State} {g : Group} {i : Nat} {p : Process} (hg : s.groups[s.gcur]? = some g)
    (hi : g.pick = some i) (hp : g.procs[i]? = some p) :
    s.running = some { group := s.gcur, proc := i, g := g, p := p } := by
  simp [State.running, hg, hi, hp]

theorem State.withRunning_eq {s : State} {r : Running} (h : s.running = some r) (f : Running → Outcome) :
    s.withRunning f = f r := by simp [State.withRunning, h]

theorem State.updateRunning_eq {s : State} {r : Running} (h : s.running = some r) (f : Process → Process) :
    s.updateRunning f = .next (s.setProc r.group r.proc (f r.p)) := by
  simp [State.updateRunning, State.withRunning, h]

/-! ## Replacing one process -/

theorem State.modifyGroup_getElem? (s : State) (gi k : Nat) (f : Group → Group) :
    (s.modifyGroup gi f).groups[k]? = if gi = k then (s.groups[k]?).map f else s.groups[k]? := by
  simp only [State.modifyGroup_groups, List.getElem?_modify]
  split <;> simp_all

theorem State.procAt_setProc_other (s : State) (gi pi k n : Nat) (p : Process) (h : (k, n) ≠ (gi, pi)) :
    (s.setProc gi pi p).procAt k n = s.procAt k n := by
  unfold State.procAt State.setProc
  rw [State.modifyGroup_getElem?]
  split
  · next hk =>
    subst hk
    have hn : pi ≠ n := fun e => h (by rw [e])
    cases hg : s.groups[gi]? with
    | none => rfl
    | some g => simp [hn]
  · rfl

theorem State.procAt_setProc_self {s : State} {gi pi : Nat} {q : Process} (p : Process)
    (h : s.procAt gi pi = some q) : (s.setProc gi pi p).procAt gi pi = some p := by
  unfold State.procAt State.setProc at *
  rw [State.modifyGroup_getElem?, if_pos rfl]
  cases hg : s.groups[gi]? with
  | none => simp [hg] at h
  | some g =>
    simp only [hg, Option.bind_some] at h
    have := (List.getElem?_eq_some_iff.mp h).1
    simp [this]

theorem SameGroups.setProc (s : State) (gi pi : Nat) (p : Process) : SameGroups s (s.setProc gi pi p) := by
  refine ⟨by simp, fun k g hg => ?_⟩
  rw [State.setProc, State.modifyGroup_getElem?]
  by_cases h : gi = k
  · exact ⟨g.setProc pi p, by simp [h, hg], rfl, rfl, rfl, by simp⟩
  · exact ⟨g, by simp [h, hg], rfl, rfl, rfl, rfl⟩

/-- Replacing the process on turn changes nothing else. -/
theorem OnlyRunning.setProc (s : State) (r : Running) (p : Process) :
    OnlyRunning s (s.setProc r.group r.proc p) r :=
  ⟨⟨rfl, rfl, SameGroups.setProc _ _ _ _, fun _ _ h => State.procAt_setProc_other _ _ _ _ _ _ h⟩, rfl, fun _ => rfl⟩

/-! ## Appending one process -/

theorem State.procAt_addProc_old {s : State} {gi k n : Nat} {p q : Process} (h : s.procAt k n = some q) :
    (s.addProc gi p).procAt k n = some q := by
  unfold State.procAt State.addProc at *
  rw [State.modifyGroup_getElem?]
  split
  · cases hg : s.groups[k]? with
    | none => simp [hg] at h
    | some g =>
      simp only [hg, Option.bind_some] at h
      have := (List.getElem?_eq_some_iff.mp h).1
      simp [Group.addProc, List.getElem?_append_left this, h]
  · exact h

end Sys2Proof.Machine
end

