-- ==== Sys2Proof/Laws/Exec.lean ====
section
/-! SUPPORT. What one instruction can do, said once: if `exec` answers a next state with a process on turn, the state is
described by `Effect`. Claims about all instructions follow from it without unfolding a meaning. -/

namespace Sys2Proof.Machine

/-- The effect of an instruction of the process `r` on the machine: its record becomes `q`, the processes `cs` are
appended to its group, and some cells of the core take words with tags of its player. -/
structure Effect (s : State) (r : Running) (cs : List Process) (q : Process) (t : State) : Prop where
  coreSize : t.coreSize = s.coreSize
  gcur : t.gcur = s.gcur
  groups : t.groups = s.groups.modify r.group (fun g => { g with procs := (g.procs ++ cs).set r.proc q })
  identity : SameIdentity r.p q
  zero : q.x[0] = r.p.x[0]
  children : cs = [] ∨ ∃ a, cs = [forkChild r a]
  coreWf : Memory.wf s.core = true → Memory.wf t.core = true
  cells : ∀ b : Nat, Memory.read t.core b = Memory.read s.core b ∨
    (b < s.coreSize ∧ ∃ w pid, (pid = r.p.id ∨ (cs ≠ [] ∧ pid = r.g.nextPid)) ∧
      Memory.read t.core b = ⟨w, some ⟨r.p.player, pid⟩⟩)

/-- An instruction that changes the executing process only. -/
theorem Effect.setProc (s : State) (r : Running) {q : Process} (hi : SameIdentity r.p q) (hz : q.x[0] = r.p.x[0]) :
    Effect s r [] q (s.setProc r.group r.proc q) :=
  { coreSize := rfl, gcur := rfl, groups := by simp [Group.setProc], identity := hi, zero := hz,
    children := Or.inl rfl, coreWf := id, cells := fun _ => Or.inl rfl }

theorem Effect.ofUpdate {s t : State} {f : Process → Process} (h : s.updateRunning f = .next t)
    (hf : ∀ p, SameIdentity p (f p) ∧ (f p).x[0] = p.x[0]) :
    (s.running = none ∧ t = s) ∨ ∃ r cs q, s.running = some r ∧ Effect s r cs q t := by
  cases hr : s.running with
  | none =>
    simp only [State.updateRunning, State.withRunning, hr] at h
    cases h; exact Or.inl ⟨rfl, rfl⟩
  | some r =>
    rw [State.updateRunning_eq hr] at h
    cases h
    exact Or.inr ⟨r, [], _, rfl, Effect.setProc s r (hf r.p).1 (hf r.p).2⟩

theorem Effect.killRunning (s : State) (r : Running) : Effect s r [] r.p.kill.advance (s.killRunning r) :=
  Effect.setProc s r ⟨rfl, rfl, rfl⟩ rfl

/-- A fork whose target is inside the core, whatever becomes of the parent. -/
theorem Effect.fork {s : State} {r : Running} (a : Word) {q : Process} (hr : s.inRange (sval a) = true)
    (hi : SameIdentity r.p q) (hz : q.x[0] = r.p.x[0]) :
    Effect s r [forkChild r a] q
      (((s.addProc r.group (forkChild r a)).place (sval a) r.p.prog ⟨r.p.player, (forkChild r a).id⟩).1.setProc
        r.group r.proc q) := by
  rw [State.inRange_iff] at hr
  refine
    { coreSize := by simp, gcur := by simp, groups := ?_, identity := hi, zero := hz,
      children := Or.inr ⟨a, rfl⟩, coreWf := fun h => ?_, cells := fun b => ?_ }
  · simp only [State.setProc_groups, State.place_groups, State.addProc_groups]
    rw [List.modify_modify_eq]
    rfl
  · simp only [State.setProc_core]
    exact State.place_wf _ _ _ _ h
  · simp only [State.setProc_core]
    by_cases hb : b < (sval a).toNat ∨ (sval a).toNat + r.p.prog.length ≤ b ∨ s.coreSize ≤ b
    · left
      rw [State.place_read_out _ _ _ _ hr.1 b (by simpa using hb)]
      simp
    · right
      have hlt : b - (sval a).toNat < r.p.prog.length := by omega
      have := State.place_read_in (s.addProc r.group (forkChild r a)) (sval a) r.p.prog
        ⟨r.p.player, (forkChild r a).id⟩ hr.1 (i := b - (sval a).toNat) (List.getElem?_eq_getElem hlt)
        (by simp only [State.addProc_coreSize]; omega)
      rw [show (sval a).toNat + (b - (sval a).toNat) = b by omega] at this
      exact ⟨by omega, _, _, Or.inr ⟨by simp, rfl⟩, this⟩

theorem Effect.answer (s : State) (r : Running) (v : Int) :
    Effect s r [] (r.p.write 1 (w32 v)).advance (s.answer r v) :=
  Effect.setProc s r ⟨by simp, by simp, by simp⟩ (by rw [Process.advance_x]; exact Process.write_x_zero _ _ _)

theorem Effect.ofService {v : Service} {s : State} {r : Running} {t : State} (h : runService v s r = .next t) :
    ∃ cs q, Effect s r cs q t := by
  cases v <;> simp only [runService] at h
  case halt => cases h; exact ⟨_, _, Effect.killRunning s r⟩
  case random =>
    cases h
    exact ⟨[], _, { Effect.answer s r s.draw with }⟩
  case score =>
    split at h
    · cases h; exact ⟨_, _, Effect.answer s r _⟩
    · cases h
  case runnableProcesses =>
    split at h
    · cases h; exact ⟨_, _, Effect.answer s r _⟩
    · cases h
  all_goals cases h; exact ⟨_, _, Effect.answer s r _⟩

/-- A meaning that needs the process on turn: what it does when there is one decides what it does. -/
theorem Effect.ofWith {s t : State} {f : Running → Outcome}
    (hf : ∀ r, s.running = some r → f r = .next t → ∃ cs q, Effect s r cs q t) (h : s.withRunning f = .next t) :
    (s.running = none ∧ t = s) ∨ ∃ r cs q, s.running = some r ∧ Effect s r cs q t := by
  cases hr : s.running with
  | none =>
    simp only [State.withRunning, hr] at h
    cases h; exact Or.inl ⟨rfl, rfl⟩
  | some r =>
    rw [State.withRunning_eq hr] at h
    obtain ⟨cs, q, he⟩ := hf r hr h
    exact Or.inr ⟨r, cs, q, rfl, he⟩

theorem Effect.ofFrk {rt : Reg} {s t : State} (h : execFrk rt s = .next t) :
    (s.running = none ∧ t = s) ∨ ∃ r cs q, s.running = some r ∧ Effect s r cs q t := by
  refine Effect.ofWith (fun r _ h => ?_) h
  dsimp only at h
  split at h
  · next hr =>
    split at h
    · cases h; exact ⟨_, _, Effect.fork _ hr ⟨rfl, rfl, rfl⟩ rfl⟩
    · cases h; exact ⟨_, _, Effect.fork _ hr ⟨rfl, rfl, rfl⟩ rfl⟩
  · cases h; exact ⟨_, _, Effect.killRunning s r⟩

theorem Effect.ofSw {rt rs : Reg} {imm : Int} {s t : State} (h : execSw rt rs imm s = .next t) :
    (s.running = none ∧ t = s) ∨ ∃ r cs q, s.running = some r ∧ Effect s r cs q t := by
  refine Effect.ofWith (fun r _ h => ?_) h
  dsimp only at h
  split at h
  · next hr =>
    rw [State.inRange_iff] at hr
    cases h
    refine ⟨[], r.p.advance, ?_⟩
    refine
      { coreSize := rfl, gcur := rfl, groups := by simp [Group.setProc], identity := ⟨rfl, rfl, rfl⟩, zero := rfl,
        children := Or.inl rfl, coreWf := fun h => Memory.wf_write _ _ h, cells := fun b => ?_ }
    by_cases hb : b = (effectiveAddress r.p rs imm).toNat
    · right
      subst hb
      exact ⟨by omega, _, _, Or.inl rfl, State.memWrite_read_self _ _ _ _⟩
    · left
      exact State.memWrite_read_other _ _ _ _ _ hb
  · cases h; exact ⟨_, _, Effect.killRunning s r⟩

theorem Effect.ofLw {rt rs : Reg} {imm : Int} {s t : State} (h : execLw rt rs imm s = .next t) :
    (s.running = none ∧ t = s) ∨ ∃ r cs q, s.running = some r ∧ Effect s r cs q t := by
  refine Effect.ofWith (fun r _ h => ?_) h
  dsimp only at h
  split at h
  · cases h
    exact ⟨_, _, Effect.setProc s r ⟨by simp, by simp, by simp⟩
      (by rw [Process.advance_x]; exact Process.write_x_zero _ _ _)⟩
  · cases h; exact ⟨_, _, Effect.killRunning s r⟩

theorem Effect.ofSyscall {s t : State} (h : execSyscall s = .next t) :
    (s.running = none ∧ t = s) ∨ ∃ r cs q, s.running = some r ∧ Effect s r cs q t := by
  refine Effect.ofWith (fun r _ h => ?_) h
  split at h
  · exact Effect.ofService h
  · cases h; exact ⟨_, _, Effect.killRunning s r⟩

theorem sameIdentity_write (p : Process) (i : Reg) (v : Word) :
    SameIdentity p (p.write i v).advance ∧ (p.write i v).advance.x[0] = p.x[0] :=
  ⟨⟨by simp, by simp, by simp⟩, by rw [Process.advance_x]; exact Process.write_x_zero _ _ _⟩

theorem sameIdentity_branch (p : Process) (b : Bool) (z : Int) :
    SameIdentity p (p.branch b z) ∧ (p.branch b z).x[0] = p.x[0] := ⟨⟨by simp, by simp, by simp⟩, by simp⟩

/-- What one instruction can do: nothing with no process on turn; otherwise an `Effect` of the process on turn. -/
theorem exec_effect {i : Instr} {s t : State} (h : exec i s = .next t) :
    (s.running = none ∧ t = s) ∨ ∃ r cs q, s.running = some r ∧ Effect s r cs q t := by
  cases i with
  | sllv rd rt rs =>
    simp only [exec, execSllv] at h
    exact Effect.ofUpdate h (fun p => sameIdentity_write p _ _)
  | srlv rd rt rs =>
    simp only [exec, execSrlv] at h
    exact Effect.ofUpdate h (fun p => sameIdentity_write p _ _)
  | jr rs =>
    simp only [exec, execJr] at h
    exact Effect.ofUpdate h (fun p => ⟨⟨rfl, rfl, rfl⟩, rfl⟩)
  | syscall => exact Effect.ofSyscall h
  | hlt =>
    simp only [exec, execHlt] at h
    exact Effect.ofWith (fun r _ h => by cases h; exact ⟨_, _, Effect.killRunning s r⟩) h
  | mult rs rt =>
    simp only [exec, execMult] at h
    exact Effect.ofUpdate h (fun p => ⟨⟨rfl, rfl, rfl⟩, rfl⟩)
  | divu rs rt =>
    simp only [exec, execDivu] at h
    exact Effect.ofUpdate h (fun p => ⟨⟨rfl, rfl, rfl⟩, rfl⟩)
  | sub rd rs rt =>
    simp only [exec, execSub] at h
    exact Effect.ofUpdate h (fun p => sameIdentity_write p _ _)
  | xor rd rs rt =>
    simp only [exec, execXor] at h
    exact Effect.ofUpdate h (fun p => sameIdentity_write p _ _)
  | slt rd rs rt =>
    simp only [exec, execSlt] at h
    exact Effect.ofUpdate h (fun p => sameIdentity_write p _ _)
  | blez rs imm =>
    simp only [exec, execBlez] at h
    exact Effect.ofUpdate h (fun p => sameIdentity_branch p _ _)
  | bgez rs imm =>
    simp only [exec, execBgez] at h
    exact Effect.ofUpdate h (fun p => sameIdentity_branch p _ _)
  | j target =>
    simp only [exec, execJ] at h
    exact Effect.ofUpdate h (fun p => ⟨⟨rfl, rfl, rfl⟩, rfl⟩)
  | bne rs rt imm =>
    simp only [exec, execBne] at h
    exact Effect.ofUpdate h (fun p => sameIdentity_branch p _ _)
  | slti rt rs imm =>
    simp only [exec, execSlti] at h
    exact Effect.ofUpdate h (fun p => sameIdentity_write p _ _)
  | andi rt rs imm =>
    simp only [exec, execAndi] at h
    exact Effect.ofUpdate h (fun p => sameIdentity_write p _ _)
  | frk rt => exact Effect.ofFrk h
  | opn =>
    simp only [exec, execOpen] at h
    exact Effect.ofUpdate h (fun p => ⟨⟨rfl, rfl, rfl⟩, rfl⟩)
  | rfrk =>
    simp only [exec, execRfrk] at h
    exact Effect.ofUpdate h (fun p => ⟨⟨rfl, rfl, rfl⟩, rfl⟩)
  | rsw =>
    simp only [exec, execRsw] at h
    exact Effect.ofUpdate h (fun p => ⟨⟨rfl, rfl, rfl⟩, rfl⟩)
  | lw rt rs imm => exact Effect.ofLw h
  | sw rt rs imm => exact Effect.ofSw h

/-! ## Where processes are after an effect -/

theorem Effect.procAt_self {s t : State} {r : Running} {cs : List Process} {q : Process} (hr : s.running = some r)
    (e : Effect s r cs q t) : t.procAt r.group r.proc = some q := by
  obtain ⟨-, hg, -, hp, -⟩ := State.running_spec hr
  have hlt := (List.getElem?_eq_some_iff.mp hp).1
  have hlt' : r.proc < (r.g.procs ++ cs).length := by rw [List.length_append]; omega
  simp only [State.procAt, e.groups, List.getElem?_modify, hg, if_true]
  exact List.getElem?_set_self hlt'

theorem Effect.procAt_other {s t : State} {r : Running} {cs : List Process} {q : Process}
    (e : Effect s r cs q t) {k n : Nat} {p : Process} (h : (k, n) ≠ (r.group, r.proc))
    (hp : s.procAt k n = some p) : t.procAt k n = some p := by
  simp only [State.procAt, e.groups, List.getElem?_modify] at hp ⊢
  cases hg : s.groups[k]? with
  | none => simp [hg] at hp
  | some g =>
    simp only [hg, Option.bind_some] at hp
    have hlt := (List.getElem?_eq_some_iff.mp hp).1
    by_cases hk : r.group = k
    · have hn : r.proc ≠ n := fun e => h (by rw [← hk, e])
      simp [hk, hn, List.getElem?_append_left hlt, hp]
    · simp [hk, hp]

end Sys2Proof.Machine
end

