-- ==== Sys2Proof/Laws/PerInstr.lean ====
section
/-! SUPPORT. The per-instruction family `OperandRoundTrip`: under any well-formed table entry of its name, the canonical
word of a well-formed instruction unpacks to the same operands (30_encoding.md R118, the operands' half). -/

namespace Sys2Proof.Laws

/-- The operands of an instruction survive packing and unpacking. -/
def OperandRoundTrip.Statement (i : Instr) : Prop :=
  ∀ e : TableEntry, entryOk e = true → e.name = i.mnemonic → i.wellFormed = true →
    instrOf e.name (encodeEntry e i) = i

/-- The opcode and the selector are in range. -/
theorem entry_bounds {e : TableEntry} (h : entryOk e = true) : e.opcode ≤ 63 ∧ e.second ≤ 63 :=
  ⟨(entryOk_spec h).1, (entryOk_spec h).2.1⟩

/-- No register field: the field value 0 is in range. -/
theorem zero_field : 0 < 32 := by omega

theorem OperandRoundTrip.sllv (rd : Reg) (rt : Reg) (rs : Reg) : OperandRoundTrip.Statement (.sllv rd rt rs) := by
  intro e he hn _
  obtain ⟨-, h1, h2, h3, -, -⟩ :=
    packR_fields (entry_bounds he).1 rs.isLt rt.isLt rd.isLt zero_field (entry_bounds he).2
  simp only [hn, Instr.mnemonic, instrOf, encodeEntry, rsField, rtField, rdField, h1, h2, h3, reg_ofNat_val]

theorem OperandRoundTrip.srlv (rd : Reg) (rt : Reg) (rs : Reg) : OperandRoundTrip.Statement (.srlv rd rt rs) := by
  intro e he hn _
  obtain ⟨-, h1, h2, h3, -, -⟩ :=
    packR_fields (entry_bounds he).1 rs.isLt rt.isLt rd.isLt zero_field (entry_bounds he).2
  simp only [hn, Instr.mnemonic, instrOf, encodeEntry, rsField, rtField, rdField, h1, h2, h3, reg_ofNat_val]

theorem OperandRoundTrip.jr (rs : Reg) : OperandRoundTrip.Statement (.jr rs) := by
  intro e he hn _
  obtain ⟨-, h1, -, -, -, -⟩ :=
    packR_fields (entry_bounds he).1 rs.isLt zero_field zero_field zero_field (entry_bounds he).2
  simp only [hn, Instr.mnemonic, instrOf, encodeEntry, rsField, h1, reg_ofNat_val]

theorem OperandRoundTrip.syscall : OperandRoundTrip.Statement (.syscall) := by
  intro e _ hn _
  simp only [hn, Instr.mnemonic, instrOf]

theorem OperandRoundTrip.hlt : OperandRoundTrip.Statement (.hlt) := by
  intro e _ hn _
  simp only [hn, Instr.mnemonic, instrOf]

theorem OperandRoundTrip.mult (rs : Reg) (rt : Reg) : OperandRoundTrip.Statement (.mult rs rt) := by
  intro e he hn _
  obtain ⟨-, h1, h2, -, -, -⟩ :=
    packR_fields (entry_bounds he).1 rs.isLt rt.isLt zero_field zero_field (entry_bounds he).2
  simp only [hn, Instr.mnemonic, instrOf, encodeEntry, rsField, rtField, h1, h2, reg_ofNat_val]

theorem OperandRoundTrip.divu (rs : Reg) (rt : Reg) : OperandRoundTrip.Statement (.divu rs rt) := by
  intro e he hn _
  obtain ⟨-, h1, h2, -, -, -⟩ :=
    packR_fields (entry_bounds he).1 rs.isLt rt.isLt zero_field zero_field (entry_bounds he).2
  simp only [hn, Instr.mnemonic, instrOf, encodeEntry, rsField, rtField, h1, h2, reg_ofNat_val]

theorem OperandRoundTrip.sub (rd : Reg) (rs : Reg) (rt : Reg) : OperandRoundTrip.Statement (.sub rd rs rt) := by
  intro e he hn _
  obtain ⟨-, h1, h2, h3, -, -⟩ :=
    packR_fields (entry_bounds he).1 rs.isLt rt.isLt rd.isLt zero_field (entry_bounds he).2
  simp only [hn, Instr.mnemonic, instrOf, encodeEntry, rsField, rtField, rdField, h1, h2, h3, reg_ofNat_val]

theorem OperandRoundTrip.xor (rd : Reg) (rs : Reg) (rt : Reg) : OperandRoundTrip.Statement (.xor rd rs rt) := by
  intro e he hn _
  obtain ⟨-, h1, h2, h3, -, -⟩ :=
    packR_fields (entry_bounds he).1 rs.isLt rt.isLt rd.isLt zero_field (entry_bounds he).2
  simp only [hn, Instr.mnemonic, instrOf, encodeEntry, rsField, rtField, rdField, h1, h2, h3, reg_ofNat_val]

theorem OperandRoundTrip.slt (rd : Reg) (rs : Reg) (rt : Reg) : OperandRoundTrip.Statement (.slt rd rs rt) := by
  intro e he hn _
  obtain ⟨-, h1, h2, h3, -, -⟩ :=
    packR_fields (entry_bounds he).1 rs.isLt rt.isLt rd.isLt zero_field (entry_bounds he).2
  simp only [hn, Instr.mnemonic, instrOf, encodeEntry, rsField, rtField, rdField, h1, h2, h3, reg_ofNat_val]

theorem OperandRoundTrip.blez (rs : Reg) (imm : Int) : OperandRoundTrip.Statement (.blez rs imm) := by
  intro e he hn hw
  obtain ⟨-, h1, -, h3⟩ := packI_fields (entry_bounds he).1 rs.isLt (rtSelector_lt he) (immBits_lt imm)
  simp only [hn, Instr.mnemonic, instrOf, encodeEntry, rsField, simmField, h1, h3, reg_ofNat_val, sext_immBits hw]

theorem OperandRoundTrip.bgez (rs : Reg) (imm : Int) : OperandRoundTrip.Statement (.bgez rs imm) := by
  intro e he hn hw
  obtain ⟨-, h1, -, h3⟩ := packI_fields (entry_bounds he).1 rs.isLt (rtSelector_lt he) (immBits_lt imm)
  simp only [hn, Instr.mnemonic, instrOf, encodeEntry, rsField, simmField, h1, h3, reg_ofNat_val, sext_immBits hw]

theorem OperandRoundTrip.j (target : Int) : OperandRoundTrip.Statement (.j target) := by
  intro e he hn hw
  obtain ⟨-, h1⟩ := packJ_fields (entry_bounds he).1 (targetBits_lt target)
  simp only [hn, Instr.mnemonic, instrOf, encodeEntry, targetField, h1, sext_targetBits hw]

theorem OperandRoundTrip.bne (rs : Reg) (rt : Reg) (imm : Int) : OperandRoundTrip.Statement (.bne rs rt imm) := by
  intro e he hn hw
  obtain ⟨-, h1, h2, h3⟩ := packI_fields (entry_bounds he).1 rs.isLt rt.isLt (immBits_lt imm)
  simp only [hn, Instr.mnemonic, instrOf, encodeEntry, rsField, rtField, simmField, h1, h2, h3, reg_ofNat_val,
    sext_immBits hw]

theorem OperandRoundTrip.slti (rt : Reg) (rs : Reg) (imm : Int) : OperandRoundTrip.Statement (.slti rt rs imm) := by
  intro e he hn hw
  obtain ⟨-, h1, h2, h3⟩ := packI_fields (entry_bounds he).1 rs.isLt rt.isLt (immBits_lt imm)
  simp only [hn, Instr.mnemonic, instrOf, encodeEntry, rsField, rtField, simmField, h1, h2, h3, reg_ofNat_val,
    sext_immBits hw]

theorem OperandRoundTrip.andi (rt : Reg) (rs : Reg) (imm : Nat) : OperandRoundTrip.Statement (.andi rt rs imm) := by
  intro e he hn hw
  have hi : imm ≤ 65535 := by simpa [Instr.wellFormed, unsigned16] using hw
  obtain ⟨-, h1, h2, h3⟩ := packI_fields (entry_bounds he).1 rs.isLt rt.isLt (by omega : imm % 65536 < 65536)
  simp only [hn, Instr.mnemonic, instrOf, encodeEntry, rsField, rtField, zimmField, h1, h2, h3, reg_ofNat_val]
  rw [Nat.mod_eq_of_lt (by omega : imm < 65536)]

theorem OperandRoundTrip.frk (rt : Reg) : OperandRoundTrip.Statement (.frk rt) := by
  intro e he hn _
  obtain ⟨-, -, h2, -⟩ := packI_fields (entry_bounds he).1 zero_field rt.isLt (by omega : 0 < 65536)
  simp only [hn, Instr.mnemonic, instrOf, encodeEntry, rtField, h2, reg_ofNat_val]

theorem OperandRoundTrip.opn : OperandRoundTrip.Statement (.opn) := by
  intro e _ hn _
  simp only [hn, Instr.mnemonic, instrOf]

theorem OperandRoundTrip.rfrk : OperandRoundTrip.Statement (.rfrk) := by
  intro e _ hn _
  simp only [hn, Instr.mnemonic, instrOf]

theorem OperandRoundTrip.rsw : OperandRoundTrip.Statement (.rsw) := by
  intro e _ hn _
  simp only [hn, Instr.mnemonic, instrOf]

theorem OperandRoundTrip.lw (rt : Reg) (rs : Reg) (imm : Int) : OperandRoundTrip.Statement (.lw rt rs imm) := by
  intro e he hn hw
  obtain ⟨-, h1, h2, h3⟩ := packI_fields (entry_bounds he).1 rs.isLt rt.isLt (immBits_lt imm)
  simp only [hn, Instr.mnemonic, instrOf, encodeEntry, rsField, rtField, simmField, h1, h2, h3, reg_ofNat_val,
    sext_immBits hw]

theorem OperandRoundTrip.sw (rt : Reg) (rs : Reg) (imm : Int) : OperandRoundTrip.Statement (.sw rt rs imm) := by
  intro e he hn hw
  obtain ⟨-, h1, h2, h3⟩ := packI_fields (entry_bounds he).1 rs.isLt rt.isLt (immBits_lt imm)
  simp only [hn, Instr.mnemonic, instrOf, encodeEntry, rsField, rtField, simmField, h1, h2, h3, reg_ofNat_val,
    sext_immBits hw]

end Sys2Proof.Laws
end

