-- ==== Sys2Proof/Laws/Scheduler.lean ====
section
/-! SUPPORT. What one tick can do, said once (47_scheduler_fetch.md R240 to R249). -/

namespace Sys2Proof.Machine

theorem finishTick_next {r : Running} {o : Outcome} {t : State} (h : finishTick r o = .next t) :
    ∃ u, o = .next u ∧ t = u.afterRun r := by
  cases o with
  | next u => cases h; exact ⟨u, rfl, rfl⟩
  | fault f => cases h
  | refused f => cases h

/-- The instruction of a turn, when it answers a next state, is an effect of the process on turn. -/
theorem runTurn_effect {cfg : Config} {s t : State} {r : Running} (hr : s.running = some r)
    (h : runTurn cfg s r = .next t) : ∃ cs q, Effect s r cs q t := by
  unfold runTurn at h
  split at h
  · rcases exec_effect h with ⟨hn, -⟩ | ⟨r', cs, q, hr', e⟩
    · rw [hr] at hn; cases hn
    · rw [hr] at hr'; cases hr'; exact ⟨cs, q, e⟩
  · unfold unknownWord at h
    split at h
    · cases h
    · cases h; exact ⟨_, _, Effect.killRunning s r⟩

/-- What one tick can do: nothing without groups; the cursor alone moves when the group on turn has no live process;
otherwise one instruction of the process on turn, and then the cursors. -/
theorem tick_cases {cfg : Config} {s t : State} (h : tick cfg s = .next t) :
    (s.groups = [] ∧ t = s) ∨ (s.groups ≠ [] ∧ s.running = none ∧ t = s.rotate) ∨
    ∃ r cs q u, s.groups ≠ [] ∧ s.running = some r ∧ runTurn cfg s r = .next u ∧ Effect s r cs q u ∧
      t = u.afterRun r := by
  unfold tick at h
  split at h
  · next hg => cases h; exact Or.inl ⟨hg, rfl⟩
  · next hg =>
    split at h
    · next hr => cases h; exact Or.inr (Or.inl ⟨hg, hr, rfl⟩)
    · next r hr =>
      obtain ⟨u, hu, rfl⟩ := finishTick_next h
      obtain ⟨cs, q, e⟩ := runTurn_effect hr hu
      exact Or.inr (Or.inr ⟨r, cs, q, u, hg, hr, hu, e, rfl⟩)

/-- A tick with a process on turn. -/
theorem tick_running {cfg : Config} {s : State} {r : Running} (hr : s.running = some r) :
    tick cfg s = finishTick r (runTurn cfg s r) := by
  have hg : s.groups ≠ [] := by
    intro h
    have := (State.running_spec hr).2.1
    simp [h] at this
  simp [tick, hg, hr]

/-- The end of a tick moves no process. -/
@[simp] theorem State.procAt_afterRun (s : State) (r : Running) (k n : Nat) :
    (s.afterRun r).procAt k n = s.procAt k n := by
  simp only [State.procAt, State.afterRun_groups, List.getElem?_modify]
  cases s.groups[k]? with
  | none => simp
  | some g => by_cases hk : r.group = k <;> simp [hk]

end Sys2Proof.Machine
end

