-- ==== Sys2Proof/Tests/Slice0.lean ====
section
/-! SUPPORT. Tests of the model. Expected values are the spec's own: the parts named in the comments are those of
95_test_vectors.md. The last section shows, for every statement that has hypotheses, states and operands that meet them. -/

namespace Sys2Proof.Tests

open Sys2Proof Sys2Proof.Machine

/-! ## Helpers: the set-up of 95_test_vectors.md (N = 64, player 1, one process with id 0 at cell 10) -/

/-- A process at 10 with some registers set. -/
def proc (prog : List Word) (regs : List (Reg × Word)) : Process :=
  regs.foldl (fun p x => p.write x.1 x.2) (Process.fresh 10#32 0 1 prog)

/-- The group of player 1 with that process. -/
def group (prog : List Word) (regs : List (Reg × Word)) : Machine.Group := (Group.fresh 1).addProc (proc prog regs)

/-- The machine with a program at 10. -/
def demoProg (prog : List Word) (regs : List (Reg × Word)) : State :=
  { ((State.ofSize 64).place 10 prog ⟨1, 0⟩).1 with groups := [group prog regs] }

/-- The machine with one instruction at 10. -/
def demo (w : Word) (regs : List (Reg × Word)) : State := demoProg [w] regs

/-- The process on turn in it. -/
def running (w : Word) (regs : List (Reg × Word)) : Running :=
  { group := 0, proc := 0, g := group [w] regs, p := proc [w] regs }

/-- The next state of an outcome. -/
def next (o : Outcome) : Option State :=
  match o with
  | .next t => some t
  | .fault _ => none
  | .refused _ => none

/-- The fault or refusal of an outcome. -/
def stop (o : Outcome) : Option (Fault ⊕ Refusal) :=
  match o with
  | .next _ => none
  | .fault f => some (.inl f)
  | .refused f => some (.inr f)

/-- The process after one step of `demo`: what `f` says of it. -/
def after {α : Type} (w : Word) (regs : List (Reg × Word)) (f : Process → α) : Option α :=
  ((next (step (demo w regs))).bind (fun t => t.procAt 0 0)).map f

/-- The machine after one step of `demo`: what `f` says of it. -/
def afterState {α : Type} (s : State) (f : State → α) : Option α := (next (step s)).map f

/-- The groups of the `syscall` table of part 5: player 1 with two processes, player 2 with two, player 3 with a dead
one. -/
def crowd (id arg : Word) : State :=
  { demo 0x0000000C#32 [] with
    groups :=
      [(group [0x0000000C#32] [(1, id), (2, arg)]).addProc (Process.fresh 20#32 1 1 [13#32]),
       ((Group.fresh 2).addProc (Process.fresh 30#32 0 2 [13#32])).addProc (Process.fresh 31#32 1 2 [13#32]),
       (Group.fresh 3).addProc (Process.fresh 40#32 0 3 [13#32]).kill] }

/-! ## WellFormed: an ill-formed term for each check -/

theorem test_wf_blez_low : Instr.wellFormed (.blez 1 (-32769)) = false := by decide
theorem test_wf_bgez_high : Instr.wellFormed (.bgez 1 32768) = false := by decide
theorem test_wf_bne_low : Instr.wellFormed (.bne 1 2 (-32769)) = false := by decide
theorem test_wf_slti_high : Instr.wellFormed (.slti 1 2 32768) = false := by decide
theorem test_wf_lw_low : Instr.wellFormed (.lw 1 2 (-32769)) = false := by decide
theorem test_wf_sw_high : Instr.wellFormed (.sw 1 2 32768) = false := by decide
theorem test_wf_andi_high : Instr.wellFormed (.andi 1 2 65536) = false := by decide
theorem test_wf_j_low : Instr.wellFormed (.j (-33554433)) = false := by decide
theorem test_wf_j_high : Instr.wellFormed (.j 33554432) = false := by decide
theorem test_wf_bounds : Instr.wellFormed (.slti 1 2 (-32768)) = true ∧ Instr.wellFormed (.andi 1 2 65535) = true ∧
    Instr.wellFormed (.j (-33554432)) = true := by decide

/-! ## The mnemonic table (R99): a bad table for each condition -/

theorem test_table_default : tableOk Config.mnemonicTable = true := by decide
theorem test_table_w1 : tableOk (⟨.opn, 28, 0⟩ :: Config.mnemonicTable.filter (fun e => e.name ≠ .opn)) = false := by decide
theorem test_table_w2 : tableOfRaw [("hlt", 0, 13), ("addu", 0, 33)] = none := by decide
theorem test_table_w3 : entryOk ⟨.sub, 2, 34⟩ = false ∧ entryOk ⟨.andi, 0, 12⟩ = false := by decide
theorem test_table_w4 : tableOk [⟨.hlt, 0, 12⟩] = false := by decide
theorem test_table_w5 : entryOk ⟨.frk, 1, 3⟩ = false := by decide
theorem test_table_range : entryOk ⟨.andi, 64, 0⟩ = false ∧ entryOk ⟨.bgez, 1, 32⟩ = false := by decide
/-- R286: the loader's range error names the value at fault, a malformed table what is wrong with it. -/
theorem test_table_errors :
    loadTable [("hlt", 0, 13), ("sub", 0, 64)] = .error (.range (.num 64, 5)) ∧
    loadTable [("hlt", -1, 13)] = .error (.range (.num (-1), 1)) ∧
    loadTable [("hlt", 0, 13), ("addu", 0, 33)] = .error (.badTable (.name "addu" 3)) ∧
    loadTable [("hlt", 0, 13), ("xor", 0, 34), ("sub", 0, 34)] = .error (.badTable (.repeated ⟨.xor, 0, 34⟩)) ∧
    loadTable [("hlt", 0, 13), ("bgez", 1, 32)] = .error (.badTable (.entry ⟨.bgez, 1, 32⟩)) ∧
    loadTable [("sub", 0, 34)] = .error (.badTable .noHlt) := by decide
theorem test_table_raw : tableOfRaw [("hlt", 0, 13), ("open", 29, 0)] = some [⟨.hlt, 0, 13⟩, ⟨.opn, 29, 0⟩] := by decide

/-! ## Decoding: a word of part 2 or 3 for every constructor -/

theorem test_decode_sllv : decode 0x00620804#32 = some (.sllv 1 2 3) := by decide
theorem test_decode_srlv : decode 0x00620806#32 = some (.srlv 1 2 3) := by decide
theorem test_decode_jr : decode 0x00800008#32 = some (.jr 4) := by decide
theorem test_decode_syscall : decode 0x0000000C#32 = some .syscall := by decide
theorem test_decode_hlt : decode 0x03FFFFCD#32 = some .hlt := by decide
theorem test_decode_mult : decode 0x00430018#32 = some (.mult 2 3) := by decide
theorem test_decode_divu : decode 0x0043001B#32 = some (.divu 2 3) := by decide
theorem test_decode_sub : decode 0x00430822#32 = some (.sub 1 2 3) := by decide
theorem test_decode_xor : decode 0x00430826#32 = some (.xor 1 2 3) := by decide
theorem test_decode_slt : decode 0x0043082A#32 = some (.slt 1 2 3) := by decide
theorem test_decode_blez : decode 0x07E08000#32 = some (.blez 31 (-32768)) := by decide
theorem test_decode_bgez : decode 0x0441FFFE#32 = some (.bgez 2 (-2)) := by decide
theorem test_decode_j : decode 0x0A000000#32 = some (.j (-33554432)) := by decide
theorem test_decode_bne : decode 0x14220005#32 = some (.bne 1 2 5) := by decide
theorem test_decode_slti : decode 0x2844FFFF#32 = some (.slti 4 2 (-1)) := by decide
theorem test_decode_andi : decode 0x3043FFFF#32 = some (.andi 3 2 65535) := by decide
theorem test_decode_frk : decode 0x73FFFFFF#32 = some (.frk 31) := by decide
theorem test_decode_opn : decode 0x77FFFFFF#32 = some .opn := by decide
theorem test_decode_rfrk : decode 0x7BFFFFFF#32 = some .rfrk := by decide
theorem test_decode_rsw : decode 0x7C000001#32 = some .rsw := by decide
theorem test_decode_lw : decode 0x8C64FFFF#32 = some (.lw 4 3 (-1)) := by decide
theorem test_decode_sw : decode 0xACA4FFFD#32 = some (.sw 4 5 (-3)) := by decide

/-- Part 2: the unknown words. -/
theorem test_unknown :
    [0x00000000#32, 0x00000001#32, 0x0000003F#32, 0x00430821#32, 0x0442FFFF#32, 0x045F0000#32, 0x0C000000#32,
     0x18000000#32, 0x20000000#32, 0xFFFFFFFF#32].all (fun w => decode w == none) = true := by decide

/-- Part 2: keys (source S7). -/
theorem test_key : key 0x07E1FFFF#32 = 0x04010000 ∧ key 0x8C640002#32 = 0x8C000000 := by decide

/-- Part 3: encodings. -/
theorem test_encode :
    encode (.srlv 31 31 31) = some 0x03FFF806#32 ∧ encode (.bne 31 31 (-32768)) = some 0x17FF8000#32 ∧
    encode (.bgez 31 32767) = some 0x07E17FFF#32 ∧ encode (.j (-11)) = some 0x0BFFFFF5#32 ∧
    encode (.lw 31 31 32767) = some 0x8FFF7FFF#32 ∧ encode (.frk 5) = some 0x70050000#32 ∧
    encode .rsw = some 0x7C000000#32 := by decide

theorem test_table_word : decodeTableWord 32 0xACA4FFFD = some (.sw 4 5 (-3)) ∧ decodeTableWord 32 0 = none := by decide

/-! ## One step of every instruction: parts 4 and 5 -/

theorem test_andi : after 0x3043FFFF#32 [(2, 0x12348765#32)] (fun p => (p.read 3, p.pc)) = some (0x8765#32, 11#32) := by
  decide
theorem test_andi_zero : after 0x3040FFFF#32 [(2, 5#32)] (fun p => (p.read 0, p.pc)) = some (0#32, 11#32) := by decide
theorem test_slti : after 0x28448000#32 [(2, 0xFFFF7FFF#32)] (fun p => (p.read 4, p.pc)) = some (1#32, 11#32) := by decide
theorem test_slti_equal : after 0x28448000#32 [(2, 0xFFFF8000#32)] (fun p => p.read 4) = some 0#32 := by decide
theorem test_bgez : after 0x0441FFFE#32 [(2, 0x7FFFFFFF#32)] Process.pc = some 8#32 := by decide
theorem test_bgez_not : after 0x04410003#32 [(2, 0x80000000#32)] Process.pc = some 11#32 := by decide
theorem test_blez : after 0x04408000#32 [(2, 0#32)] Process.pc = some 0xFFFF800A#32 := by decide
theorem test_blez_not : after 0x04400003#32 [(2, 1#32)] Process.pc = some 11#32 := by decide
theorem test_bne : after 0x14220005#32 [(1, 1#32), (2, 2#32)] Process.pc = some 15#32 := by decide
theorem test_bne_not : after 0x14220005#32 [(1, 2#32), (2, 2#32)] Process.pc = some 11#32 := by decide
theorem test_j : after 0x0BFFFFF5#32 [] (fun p => (p.pc, p.alive)) = some (0xFFFFFFFF#32, true) := by decide
theorem test_j_far : after 0x0A000000#32 [] Process.pc = some 0xFE00000A#32 := by decide
theorem test_jr : after 0x03E00008#32 [(31, 0x12345678#32)] Process.pc = some 0x12345678#32 := by decide
theorem test_lw_wraps : after 0x8C640001#32 [(3, 0xFFFFFFFF#32)] (fun p => (p.read 4, p.pc)) = some (13#32, 11#32) := by
  decide
theorem test_lw_out : after 0x8C640002#32 [(3, 62#32), (4, 9#32)] (fun p => (p.read 4, p.alive, p.pc)) =
    some (9#32, false, 11#32) := by decide
theorem test_sw : afterState (demo 0xAC010004#32 [(1, 1#32)]) (fun t => Memory.read t.core 4) =
    some ⟨1#32, some ⟨1, 0⟩⟩ := by decide
theorem test_sw_out : afterState (demo 0xACA40001#32 [(5, 63#32)])
    (fun t => (t.core, (t.procAt 0 0).map Process.alive)) = some ([(10, ⟨0xACA40001#32, some ⟨1, 0⟩⟩)], some false) := by
  decide
theorem test_sub : after 0x00430822#32 [(2, 7#32), (3, 9#32)] (fun p => (p.read 1, p.pc)) =
    some (0xFFFFFFFE#32, 11#32) := by decide
theorem test_sub_same : after 0x00431822#32 [(2, 10#32), (3, 4#32)] (fun p => p.read 3) = some 6#32 := by decide
theorem test_xor : after 0x00430826#32 [(2, 0xFF00#32), (3, 0xFF0#32)] (fun p => (p.read 1, p.pc)) =
    some (0xF0F0#32, 11#32) := by decide
theorem test_slt : after 0x0043082A#32 [(2, 0xFFFFFFFF#32), (3, 1#32)] (fun p => (p.read 1, p.pc)) =
    some (1#32, 11#32) := by decide
theorem test_sllv : after 0x00620804#32 [(2, 0xDEADBEEF#32), (3, 36#32)] (fun p => (p.read 1, p.pc)) =
    some (0xEADBEEF0#32, 11#32) := by decide
theorem test_srlv : after 0x00620806#32 [(2, 0xDEADBEEF#32), (3, 33#32)] (fun p => (p.read 1, p.pc)) =
    some (0x6F56DF77#32, 11#32) := by decide
theorem test_mult : after 0x00430018#32 [(2, 0x80000000#32), (3, 0x7FFFFFFF#32)] (fun p => (p.hi, p.lo)) =
    some (0xC0000000#32, 0x80000000#32) := by decide
theorem test_mult_source : after 0x00430018#32 [(2, 5#32), (3, 2#32)] (fun p => (p.hi, p.lo, p.pc)) =
    some (0#32, 10#32, 11#32) := by decide
theorem test_divu : after 0x0043001B#32 [(2, 0xFFFFFFF9#32), (3, 0xFFFFFFFE#32)] (fun p => (p.hi, p.lo, p.pc)) =
    some (1#32, 3#32, 11#32) := by decide
theorem test_divu_min : after 0x0043001B#32 [(2, 0x80000000#32), (3, 0xFFFFFFFF#32)] (fun p => (p.hi, p.lo)) =
    some (0#32, 0x80000000#32) := by decide
theorem test_hlt : after 0x03FFFFCD#32 [(31, 5#32)] (fun p => (p.alive, p.pc, p.read 31)) =
    some (false, 11#32, 5#32) := by decide
theorem test_frk_out : afterState (demo 0x70050000#32 [(5, 64#32)])
    (fun t => ((t.procAt 0 0).map Process.alive, t.procAt 0 1, t.core.length)) = some (some false, none, 1) := by decide
theorem test_frk_runs_off : afterState (demoProg [0x70050000#32, 13#32, 13#32] [(5, 62#32)])
    (fun t => ((t.procAt 0 0).map Process.alive, (t.procAt 0 1).map Process.alive, Memory.read t.core 61,
      Memory.read t.core 63)) = some (some false, some true, ⟨13#32, none⟩, ⟨13#32, some ⟨1, 1⟩⟩) := by decide
theorem test_syscall_players : ((next (step (crowd 7#32 2#32))).bind (fun t => t.procAt 0 0)).map (fun p => p.read 1) =
    some 3#32 := by decide
theorem test_syscall_missing : stop (step (crowd 11#32 4#32)) = some (.inr (.noSuchGroup 11 4)) := by decide
theorem test_opn : after 0x77FFFFFF#32 [(1, 5#32)] (fun p => (p.read 1, p.alive, p.pc)) =
    some (5#32, true, 11#32) := by decide
theorem test_rfrk : afterState (demo 0x78000000#32 []) (fun t => ((t.procAt 0 0).map Process.pc, t.procAt 0 1)) =
    some (some 11#32, none) := by decide
theorem test_rsw : afterState (demo 0x7C000000#32 []) (fun t => ((t.procAt 0 0).map Process.pc, t.core.length)) =
    some (some 11#32, 1) := by decide

/-! ## Fetch, scheduler, battles, loading: parts 6 to 8 -/

/-- The machine of F3 to F5 before the second tick: `pc` 17, and a cell at 17. -/
def fetching (c : Cell) : State :=
  { demo 0x00800008#32 [] with
    core := Memory.write [] 17 c
    groups := [(Group.fresh 1).addProc (Process.fresh 17#32 0 1 [0x00800008#32])] }

theorem test_fetch_foreign : ((next (step (fetching ⟨0x28010001#32, some ⟨2, 0⟩⟩))).bind (fun t => t.procAt 0 0)).map
    (fun p => (p.read 1, p.alive, p.pc)) = some (0#32, false, 18#32) := by decide
theorem test_fetch_own_group : ((next (step (fetching ⟨0x28010001#32, some ⟨1, 7⟩⟩))).bind
    (fun t => t.procAt 0 0)).map (fun p => (p.read 1, p.alive, p.pc)) = some (1#32, true, 18#32) := by decide
theorem test_unknown_word_faults : stop (step (demo 0#32 [])) = some (.inl (.unknownInstruction 0#32 10)) := by
  decide

/-- A battle of part 6: programs of players 1 and 2 at 0 and 8 of a core of 16 cells. -/
def battle (a b : List Word) : State :=
  match (State.ofSize 16).load 1 a 0 with
  | .loaded s =>
    match s.load 2 b 8 with
    | .loaded t => t
    | _ => s
  | _ => State.ofSize 16

/-- The verdict of a run. -/
def verdict (o : Host.Outcome (State × Verdict) Fault Refusal) : Option (Nat × Verdict) :=
  match o with
  | .next x => some (x.1.gcur, x.2)
  | .fault _ => none
  | .refused _ => none

theorem test_battle_v1 : verdict (run Config.default 5 (battle [13#32] [13#32])) = some (0, .draw) := by decide
theorem test_battle_v2 : verdict (run Config.default 3 (battle [0x04000000#32] [0x08000000#32])) =
    some (0, .continuing) := by decide
theorem test_battle_b2 : verdict (run Config.default 10 (battle [0x28010001#32, 0xAC010008#32, 0x04000000#32]
    [0x08000000#32])) = some (0, .winner 1) := by decide

/-- Part 7: ten cells, cells 3 and 4 owned. -/
def tenCells : State :=
  { State.ofSize 10 with core := [(3, ⟨13#32, some ⟨1, 0⟩⟩), (4, ⟨13#32, some ⟨1, 0⟩⟩)] }

theorem test_placements : tenCells.validPlacements 3 = [0, 5, 6, 7] ∧ tenCells.validPlacements 6 = [] := by decide

/-- The first instruction after reset, placed by the host: `slti $1, $0, 1` (R141). -/
theorem test_first_instruction : ((next (step (State.reset.withFetchWord 32 0x28010001))).bind
    (fun t => t.procAt 0 0)).map (fun p => (p.read 1, p.pc)) = some (1#32, 1#32) := by decide

/-- Source S2: disassembly and assembly of `sub $1, $2, $3`. -/
theorem test_text : disassemble Config.mnemonicTable 0x00430822#32 = some "sub $1, $2, $3" := by decide
theorem test_assemble : assemble Config.mnemonicTable
    [.word "sub", .reg 1, .reg 2, .reg 3, .word "lw", .reg 4, .num (-1), .lparen, .reg 3, .rparen] =
    .ok [0x00430822#32, 0x8C64FFFF#32] := by decide

/-- R114, R116: errors name the offending token and its place; an empty token ends the input. -/
theorem test_assemble_errors :
    assemble Config.mnemonicTable [.word "hlt", .word "jr", .reg 32] = .error (.range (.reg 32, 2)) ∧
    assemble Config.mnemonicTable [.word "j", .num 33554432] = .error (.range (.num 33554432, 1)) ∧
    assemble Config.mnemonicTable [.word "lw", .reg 1, .num 0, .reg 2] = .error (.parse (some (.reg 2, 3))) ∧
    assemble Config.mnemonicTable [.word "jr"] = .error (.parse none) ∧
    assemble Config.mnemonicTable [.num 4] = .error (.parse (some (.num 4, 0))) ∧
    assemble Config.mnemonicTable [.word "hlt", .word "nop"] = .error (.unknownMnemonic "nop" 1) ∧
    assemble Config.mnemonicTable [.word "hlt", .word "", .num 4] = .ok [13#32] := by decide

/-! ## Witnesses: states and operands that meet the hypotheses of each statement, clause by clause -/

theorem eq_next {o : Outcome} {t : State} (h : next o = some t) : o = .next t := by
  cases o with
  | next u => cases h; rfl
  | fault f => cases h
  | refused f => cases h

theorem exists_next {o : Outcome} (h : (next o).isSome = true) : ∃ t, o = .next t := by
  obtain ⟨t, ht⟩ := Option.isSome_iff_exists.mp h
  exact ⟨t, eq_next ht⟩

theorem witness_StepRunsDecodedInstruction :
    (demo 0x00430822#32 []).running = some (running 0x00430822#32 []) ∧
    decode (fetch (demo 0x00430822#32 []) (running 0x00430822#32 []).g (running 0x00430822#32 []).p)
      = some (.sub 1 2 3) := by decide

theorem witness_EncodeResolveRoundTrip :
    tableOk Config.mnemonicTable = true ∧ (Instr.j (-33554432)).wellFormed = true ∧
    encodeIn Config.mnemonicTable (.j (-33554432)) = some 0x0A000000#32 := by decide

theorem witness_AssembledWordHasEntryKey :
    entryOk ⟨.bgez, 1, 31⟩ = true ∧ (TableEntry.mk .bgez 1 31).name = (Instr.bgez 31 (-1)).mnemonic ∧
    entryOk ⟨.sw, 63, 0⟩ = true ∧ (TableEntry.mk .sw 63 0).name = (Instr.sw 1 2 3).mnemonic ∧
    entryOk ⟨.sub, 0, 63⟩ = true ∧ (TableEntry.mk .sub 0 63).name = (Instr.sub 1 2 3).mnemonic := by decide

theorem witness_MaskAndMatchSelectWords :
    entryOk ⟨.sub, 0, 63⟩ = true ∧ entryOk ⟨.bgez, 1, 31⟩ = true ∧ entryOk ⟨.j, 2, 0⟩ = true ∧
    entryOk ⟨.sw, 63, 63⟩ = true := by decide

theorem witness_EveryFunctThirteenIsHlt :
    tableOk Config.mnemonicTable = true ∧ (0x03FFFFCD#32 >>> 26) = 0#32 ∧ (0x03FFFFCD#32 &&& 0x3F#32) = 13#32 := by decide

theorem witness_ResolvedInstructionsAreWellFormed :
    resolveIn Config.mnemonicTable 0x28418000#32 = some (.slti 1 2 (-32768)) := by decide

theorem witness_ConstructGivesUnwrittenCore :
    ¬(1 ≤ 0 ∧ 0 ≤ 65535) ∧ ¬(1 ≤ 65536 ∧ 65536 ≤ 65535) ∧ (1 ≤ 1 ∧ 1 ≤ 65535) ∧ (1 ≤ 65535 ∧ 65535 ≤ 65535) := by decide

theorem witness_ResetSatisfiesInvariant : construct 1 = .ok (State.ofSize 1) := rfl

/-- The demo machine satisfies the invariant. -/
theorem demo_wf : (demo 0x00430822#32 []).wf := by
  have hc : (demo 0x00430822#32 []).core = [(10, ⟨0x00430822#32, some ⟨1, 0⟩⟩)] := by decide
  have hg : (demo 0x00430822#32 []).groups = [group [0x00430822#32] []] := rfl
  refine ⟨by decide, by decide, ⟨by decide, fun a c h => ?_⟩, fun g h => ?_, by decide, by decide⟩
  · rw [hc, List.mem_singleton] at h
    cases h
    exact ⟨by decide, ⟨1, 0⟩, rfl, _, List.mem_singleton.mpr rfl, by decide⟩
  · rw [hg, List.mem_singleton] at h
    subst h
    refine ⟨by decide, by decide, by decide, fun i h => (by cases h), fun i p h => ?_⟩
    cases i with
    | zero => cases h; exact ⟨rfl, rfl, by decide, by decide⟩
    | succ i => cases i <;> cases h

theorem witness_StepKeepsInvariant :
    ∃ t, (demo 0x00430822#32 []).wf ∧ step (demo 0x00430822#32 []) = .next t ∧
      tick Config.default (demo 0x00430822#32 []) = .next t := by
  obtain ⟨t, ht⟩ := exists_next (o := step (demo 0x00430822#32 [])) (by decide)
  exact ⟨t, demo_wf, ht, ht⟩

theorem witness_LoadKeepsInvariant :
    (∃ t, (demo 0x00430822#32 []).wf ∧ (demo 0x00430822#32 []).load 9 [13#32] 63 = .loaded t) ∧
    ∃ t, (demo 0x00430822#32 []).wf ∧
      (demo 0x00430822#32 []).load 2 (List.replicate 54 13#32) 0 = .insufficientMemory t :=
  ⟨⟨_, demo_wf, rfl⟩, ⟨_, demo_wf, rfl⟩⟩

/-- In the demo machine every unowned cell holds the word 13. -/
theorem demo_unownedHalt (w : Word) (regs : List (Reg × Word)) : (demo w regs).unownedHalt := by
  intro a h
  have hc : (demo w regs).core = [(10, ⟨w, some ⟨1, 0⟩⟩)] := by
    simp [demo, demoProg, State.place, State.inRange, State.ofSize, State.memWrite, Memory.write, Memory.cons,
      Cell.unwritten]
  rw [hc] at h ⊢
  by_cases ha : a = 10
  · simp [Memory.read, ha] at h
  · simp [Memory.read, ha, Cell.unwritten]

theorem witness_UnownedCellsHoldHaltWord :
    ∃ t, (demo 0xAC010004#32 []).unownedHalt ∧ step (demo 0xAC010004#32 []) = .next t := by
  obtain ⟨t, ht⟩ := exists_next (o := step (demo 0xAC010004#32 [])) (by decide)
  exact ⟨t, demo_unownedHalt _ _, ht⟩

theorem witness_AndiResult :
    (demo 0x3043FFFF#32 [(2, 5#32)]).running = some (running 0x3043FFFF#32 [(2, 5#32)]) ∧ (0 : Nat) ≤ 65535 ∧
    (65535 : Nat) ≤ 65535 := by decide

theorem witness_SltiResult :
    (demo 0x28448000#32 [(2, 5#32)]).running = some (running 0x28448000#32 [(2, 5#32)]) ∧
    (-32768 : Int) ≤ -32768 ∧ (-32768 : Int) ≤ 32767 ∧ (-32768 : Int) ≤ 32767 ∧ (32767 : Int) ≤ 32767 := by decide

/-- Both sides of each branch: the sign of 0 and −1, of 0 and 1, equal and different registers. -/
theorem witness_BranchResults :
    (demo 0x04410003#32 [(3, 0xFFFFFFFF#32), (4, 1#32)]).running
      = some (running 0x04410003#32 [(3, 0xFFFFFFFF#32), (4, 1#32)]) ∧
    0 ≤ ((running 0x04410003#32 [(3, 0xFFFFFFFF#32), (4, 1#32)]).p.read 2).toInt ∧
    ¬0 ≤ ((running 0x04410003#32 [(3, 0xFFFFFFFF#32), (4, 1#32)]).p.read 3).toInt ∧
    ((running 0x04410003#32 [(3, 0xFFFFFFFF#32), (4, 1#32)]).p.read 2).toInt ≤ 0 ∧
    ¬((running 0x04410003#32 [(3, 0xFFFFFFFF#32), (4, 1#32)]).p.read 4).toInt ≤ 0 ∧
    (running 0x04410003#32 [(3, 0xFFFFFFFF#32), (4, 1#32)]).p.read 2
      = (running 0x04410003#32 [(3, 0xFFFFFFFF#32), (4, 1#32)]).p.read 5 ∧
    (running 0x04410003#32 [(3, 0xFFFFFFFF#32), (4, 1#32)]).p.read 2
      ≠ (running 0x04410003#32 [(3, 0xFFFFFFFF#32), (4, 1#32)]).p.read 3 := by decide

theorem witness_JumpIsRelative : (demo 0x08000000#32 []).running = some (running 0x08000000#32 []) := by decide
theorem witness_JumpRegisterIsAbsolute : (demo 0x00800008#32 []).running = some (running 0x00800008#32 []) := by decide

/-- Addresses 0 and 63 are inside the core of 64 cells, −1 and 64 are not. -/
theorem witness_LoadResult :
    (demo 0x8C640002#32 [(3, 63#32)]).running = some (running 0x8C640002#32 [(3, 63#32)]) ∧
    (demo 0x8C640002#32 [(3, 63#32)]).coreSize = 64 ∧
    effectiveAddress (running 0x8C640002#32 [(3, 63#32)]).p 0 0 = 0 ∧
    effectiveAddress (running 0x8C640002#32 [(3, 63#32)]).p 3 0 = 63 ∧
    effectiveAddress (running 0x8C640002#32 [(3, 63#32)]).p 0 (-1) = -1 ∧
    effectiveAddress (running 0x8C640002#32 [(3, 63#32)]).p 3 1 = 64 := by decide

theorem witness_StoreResult :
    (demo 0xACA40001#32 [(5, 63#32)]).running = some (running 0xACA40001#32 [(5, 63#32)]) ∧
    (demo 0xACA40001#32 [(5, 63#32)]).coreSize = 64 ∧
    effectiveAddress (running 0xACA40001#32 [(5, 63#32)]).p 0 0 = 0 ∧
    effectiveAddress (running 0xACA40001#32 [(5, 63#32)]).p 5 0 = 63 ∧
    effectiveAddress (running 0xACA40001#32 [(5, 63#32)]).p 0 (-1) = -1 ∧
    effectiveAddress (running 0xACA40001#32 [(5, 63#32)]).p 5 1 = 64 := by decide

/-- A process at cell 4 sees the store to cell 4: one of the storing group, one of another. -/
theorem witness_StoreIsSeenByNextFetch :
    ∃ t, (demo 0xAC010004#32 [(1, 7#32)]).running = some (running 0xAC010004#32 [(1, 7#32)]) ∧
      (demo 0xAC010004#32 [(1, 7#32)]).inRange (effectiveAddress (running 0xAC010004#32 [(1, 7#32)]).p 0 4) = true ∧
      exec (.sw 1 0 4) (demo 0xAC010004#32 [(1, 7#32)]) = .next t ∧
      (Process.fresh 4#32 0 1 [13#32]).pc.toInt = effectiveAddress (running 0xAC010004#32 [(1, 7#32)]).p 0 4 ∧
      (Group.fresh 1).player = (running 0xAC010004#32 [(1, 7#32)]).p.player ∧
      (Group.fresh 2).player ≠ (running 0xAC010004#32 [(1, 7#32)]).p.player := by
  obtain ⟨t, ht⟩ := exists_next (o := exec (.sw 1 0 4) (demo 0xAC010004#32 [(1, 7#32)])) (by decide)
  exact ⟨t, by decide, by decide, ht, by decide, by decide, by decide⟩

theorem witness_SubResult : (demo 0x00430822#32 []).running = some (running 0x00430822#32 []) := by decide
theorem witness_XorResult : (demo 0x00430826#32 []).running = some (running 0x00430826#32 []) := by decide
theorem witness_SltResult : (demo 0x0043082A#32 []).running = some (running 0x0043082A#32 []) := by decide
theorem witness_ShiftResults : (demo 0x00620804#32 []).running = some (running 0x00620804#32 []) := by decide
theorem witness_MultResult : (demo 0x00430018#32 []).running = some (running 0x00430018#32 []) := by decide

/-- A zero and a nonzero divisor. -/
theorem witness_DivuResult :
    (demo 0x0043001B#32 [(3, 1#32)]).running = some (running 0x0043001B#32 [(3, 1#32)]) ∧
    (running 0x0043001B#32 [(3, 1#32)]).p.read 2 = 0#32 ∧ (running 0x0043001B#32 [(3, 1#32)]).p.read 3 ≠ 0#32 := by decide

theorem witness_HltKillsOnlyItself : (demo 13#32 []).running = some (running 13#32 []) := by decide

/-- Targets 64 and −1. -/
theorem witness_ForkOutOfRangeKillsParent :
    (demo 0x70050000#32 [(5, 64#32), (6, 0xFFFFFFFF#32)]).running
      = some (running 0x70050000#32 [(5, 64#32), (6, 0xFFFFFFFF#32)]) ∧
    (demo 0x70050000#32 [(5, 64#32), (6, 0xFFFFFFFF#32)]).inRange
      (sval ((running 0x70050000#32 [(5, 64#32), (6, 0xFFFFFFFF#32)]).p.read 5)) = false ∧
    (demo 0x70050000#32 [(5, 64#32), (6, 0xFFFFFFFF#32)]).inRange
      (sval ((running 0x70050000#32 [(5, 64#32), (6, 0xFFFFFFFF#32)]).p.read 6)) = false := by decide

/-- A program of one word at targets 0 and 63. -/
theorem witness_ForkRegistersChildAndCopies :
    (demo 0x70050000#32 [(5, 63#32)]).running = some (running 0x70050000#32 [(5, 63#32)]) ∧
    (demo 0x70050000#32 [(5, 63#32)]).inRange (sval ((running 0x70050000#32 [(5, 63#32)]).p.read 5)) = true ∧
    (sval ((running 0x70050000#32 [(5, 63#32)]).p.read 5) : Int) + (running 0x70050000#32 [(5, 63#32)]).p.prog.length
      ≤ (demo 0x70050000#32 [(5, 63#32)]).coreSize ∧
    (demo 0x70050000#32 [(5, 63#32)]).inRange (sval ((running 0x70050000#32 [(5, 63#32)]).p.read 0)) = true := by decide

/-- A program of two words at target 63: its second word runs off. -/
theorem witness_ForkRunOffKillsParentKeepsChild :
    ∃ r, (demoProg [0x70050000#32, 13#32] [(5, 63#32)]).running = some r ∧
      (demoProg [0x70050000#32, 13#32] [(5, 63#32)]).inRange (sval (r.p.read 5)) = true ∧
      ((demoProg [0x70050000#32, 13#32] [(5, 63#32)]).coreSize : Int) < sval (r.p.read 5) + r.p.prog.length :=
  ⟨⟨0, 0, group [0x70050000#32, 13#32] [(5, 63#32)], proc [0x70050000#32, 13#32] [(5, 63#32)]⟩, by decide, by decide,
    by decide⟩

/-- Call ids 0, −1 and 13. -/
theorem witness_SyscallHaltAndUnknownKill :
    (demo 12#32 []).running = some (running 12#32 []) ∧ sval ((running 12#32 []).p.read 1) = 0 ∧
    (demo 12#32 [(1, 0xFFFFFFFF#32)]).running = some (running 12#32 [(1, 0xFFFFFFFF#32)]) ∧
    sval ((running 12#32 [(1, 0xFFFFFFFF#32)]).p.read 1) < 0 ∧
    (demo 12#32 [(1, 13#32)]).running = some (running 12#32 [(1, 13#32)]) ∧
    12 < sval ((running 12#32 [(1, 13#32)]).p.read 1) := by decide

/-- Every call id of the statement. -/
theorem witness_SyscallConstantsAndIdentity :
    [2, 3, 4, 5, 9, 10, 12].all (fun n => (demo 12#32 [(1, BitVec.ofNat 32 n)]).running
        == some (running 12#32 [(1, BitVec.ofNat 32 n)]) &&
      sval ((running 12#32 [(1, BitVec.ofNat 32 n)]).p.read 1) == (n : Int)) = true := by decide

theorem witness_SyscallCountsGroups :
    [6, 7].all (fun n => (demo 12#32 [(1, BitVec.ofNat 32 n)]).running
        == some (running 12#32 [(1, BitVec.ofNat 32 n)]) &&
      sval ((running 12#32 [(1, BitVec.ofNat 32 n)]).p.read 1) == (n : Int)) = true := by decide

theorem witness_SyscallRandomIsBelowCoreSize :
    (demo 12#32 [(1, 1#32)]).running = some (running 12#32 [(1, 1#32)]) ∧ 0 < (demo 12#32 [(1, 1#32)]).coreSize ∧
    (demo 12#32 [(1, 1#32)]).coreSize ≤ 65535 ∧ sval ((running 12#32 [(1, 1#32)]).p.read 1) = 1 := by decide

/-- Services 8 and 11 for the group of player 1, and for player 4, which has none. -/
theorem witness_SyscallGroupServices :
    [8, 11].all (fun n => (demo 12#32 [(1, BitVec.ofNat 32 n), (2, 1#32)]).running
        == some (running 12#32 [(1, BitVec.ofNat 32 n), (2, 1#32)]) &&
      sval ((running 12#32 [(1, BitVec.ofNat 32 n), (2, 1#32)]).p.read 1) == (n : Int) &&
      ((demo 12#32 [(1, BitVec.ofNat 32 n), (2, 1#32)]).groups.find? (fun g => decide ((g.player : Int) = 1))).isSome) = true ∧
    sval ((running 12#32 [(1, 8#32), (2, 1#32)]).p.read 2) = 1 ∧
    (demo 12#32 [(1, 8#32), (2, 4#32)]).running = some (running 12#32 [(1, 8#32), (2, 4#32)]) ∧
    (demo 12#32 [(1, 11#32), (2, 4#32)]).running = some (running 12#32 [(1, 11#32), (2, 4#32)]) ∧
    (∀ g ∈ (demo 12#32 [(1, 8#32), (2, 4#32)]).groups,
      (g.player : Int) ≠ sval ((running 12#32 [(1, 8#32), (2, 4#32)]).p.read 2)) ∧
    (∀ g ∈ (demo 12#32 [(1, 11#32), (2, 4#32)]).groups,
      (g.player : Int) ≠ sval ((running 12#32 [(1, 11#32), (2, 4#32)]).p.read 2)) := by decide

theorem witness_ReservedInstructionsOnlyAdvance :
    (demo 0x74000000#32 []).running = some (running 0x74000000#32 []) := by decide

/-- A `pc` of 64 and one of −1, and a foreign cell at 17. -/
theorem witness_ForcedHaltKillsIntruder :
    tableOk Config.default.table = true ∧
    (∃ r, { fetching Cell.unwritten with
        groups := [(Group.fresh 1).addProc (Process.fresh 64#32 0 1 [13#32])] }.running = some r ∧
      (fetching Cell.unwritten).inRange (sval r.p.pc) = false) ∧
    (∃ r, { fetching Cell.unwritten with
        groups := [(Group.fresh 1).addProc (Process.fresh 0xFFFFFFFF#32 0 1 [13#32])] }.running = some r ∧
      (fetching Cell.unwritten).inRange (sval r.p.pc) = false) ∧
    ∃ r, (fetching ⟨0x28010001#32, some ⟨2, 0⟩⟩).running = some r ∧
      ∃ o, (Memory.read (fetching ⟨0x28010001#32, some ⟨2, 0⟩⟩).core (sval r.p.pc).toNat).owner = some o ∧
        o.player ≠ r.g.player :=
  ⟨by decide, ⟨_, rfl, by decide⟩, ⟨_, rfl, by decide⟩, ⟨_, rfl, ⟨2, 0⟩, rfl, by decide⟩⟩

theorem witness_OnlyOwnCodeExecutes :
    (demo 0x00430822#32 []).unownedHalt ∧ (demo 0x00430822#32 []).running = some (running 0x00430822#32 []) ∧
    decode (fetch (demo 0x00430822#32 []) (running 0x00430822#32 []).g (running 0x00430822#32 []).p)
      = some (.sub 1 2 3) ∧ Instr.sub 1 2 3 ≠ .hlt :=
  ⟨demo_unownedHalt _ _, by decide, by decide, by decide⟩

theorem witness_UnknownWordFaultsOrKills :
    (demo 0#32 []).running = some (running 0#32 []) ∧
    resolveIn Config.mnemonicTable (fetch (demo 0#32 []) (running 0#32 []).g (running 0#32 []).p) = none := by decide

/-- A machine whose one process is dead. -/
def dead : State :=
  { State.ofSize 64 with groups := [(Group.fresh 1).addProc (Process.fresh 10#32 0 1 [13#32]).kill] }

theorem witness_StepWithoutLiveProcess :
    State.reset.groups = [] ∧ dead.groups ≠ [] ∧
    ∀ g, dead.groups[dead.gcur]? = some g → ∀ p ∈ g.procs, p.alive = false :=
  ⟨rfl, by decide, fun g h => by cases h; decide⟩

theorem witness_CursorsAfterStep :
    ∃ t, (demo 0x00430822#32 []).running = some (running 0x00430822#32 []) ∧ step (demo 0x00430822#32 []) = .next t := by
  obtain ⟨t, ht⟩ := exists_next (o := step (demo 0x00430822#32 [])) (by decide)
  exact ⟨t, by decide, ht⟩

/-- Two live processes of one group, each looping on its own cell. -/
def loopers : State :=
  { State.ofSize 64 with
    core := [(10, ⟨0x08000000#32, some ⟨1, 0⟩⟩), (11, ⟨0x08000000#32, some ⟨1, 1⟩⟩)]
    groups := [((Group.fresh 1).addProc (Process.fresh 10#32 0 1 [0x08000000#32])).addProc
      (Process.fresh 11#32 1 1 [0x08000000#32])] }

theorem witness_StepChangesNoOtherProcess :
    ∃ t, step loopers = .next t ∧ loopers.procAt 0 1 = some (Process.fresh 11#32 1 1 [0x08000000#32]) ∧
      ∀ r, loopers.running = some r → (0, 1) ≠ (r.group, r.proc) := by
  obtain ⟨t, ht⟩ := exists_next (o := step loopers) (by decide)
  refine ⟨t, ht, by decide, fun r h => ?_⟩
  have : loopers.running = some ⟨0, 0, (((Group.fresh 1).addProc (Process.fresh 10#32 0 1 [0x08000000#32])).addProc
    (Process.fresh 11#32 1 1 [0x08000000#32])), Process.fresh 10#32 0 1 [0x08000000#32]⟩ := by decide
  rw [this] at h
  cases h
  decide

/-- A live process and a dead one. -/
theorem witness_DeadProcessesNeverChange :
    (∃ t, tick Config.default loopers = .next t ∧
      loopers.procAt 0 0 = some (Process.fresh 10#32 0 1 [0x08000000#32])) ∧
    ∃ t, tick Config.default dead = .next t ∧ dead.procAt 0 0 = some (Process.fresh 10#32 0 1 [13#32]).kill ∧
      (Process.fresh 10#32 0 1 [13#32]).kill.alive = false := by
  obtain ⟨t, ht⟩ := exists_next (o := tick Config.default loopers) (by decide)
  obtain ⟨u, hu⟩ := exists_next (o := tick Config.default dead) (by decide)
  exact ⟨⟨t, ht, by decide⟩, ⟨u, hu, by decide, by decide⟩⟩

theorem witness_StepTagsEveryCellItWrites :
    ∃ t, step (demo 0xAC010004#32 []) = .next t ∧ (Memory.read (demo 0xAC010004#32 []).core 10).owner ≠ none := by
  obtain ⟨t, ht⟩ := exists_next (o := step (demo 0xAC010004#32 [])) (by decide)
  exact ⟨t, ht, by decide⟩

theorem witness_OnlyStoreAndForkWriteCore :
    ∃ t, (Instr.lw 1 2 3).mnemonic ≠ .sw ∧ (Instr.lw 1 2 3).mnemonic ≠ .frk ∧
      exec (.lw 1 2 3) (demo 0x00430822#32 []) = .next t := by
  obtain ⟨t, ht⟩ := exists_next (o := exec (.lw 1 2 3) (demo 0x00430822#32 [])) (by decide)
  exact ⟨t, by decide, by decide, ht⟩

/-- A process that lives on, and one that dies. -/
theorem witness_ProcessDiesExactlyByItsCauses :
    (∃ t, tableOk Config.default.table = true ∧ Config.default.unknownPolicy = .fault ∧
      (demo 0x00430822#32 []).running = some (running 0x00430822#32 []) ∧
      tick Config.default (demo 0x00430822#32 []) = .next t ∧
      killCause Config.default.table (demo 0x00430822#32 []) (running 0x00430822#32 []) = none) ∧
    ∃ t, (demo 12#32 [(1, 13#32)]).running = some (running 12#32 [(1, 13#32)]) ∧
      tick Config.default (demo 12#32 [(1, 13#32)]) = .next t ∧
      killCause Config.default.table (demo 12#32 [(1, 13#32)]) (running 12#32 [(1, 13#32)]) = some .syscallUnknown := by
  obtain ⟨t, ht⟩ := exists_next (o := tick Config.default (demo 0x00430822#32 [])) (by decide)
  obtain ⟨u, hu⟩ := exists_next (o := tick Config.default (demo 12#32 [(1, 13#32)])) (by decide)
  exact ⟨⟨t, by decide, by decide, by decide, ht, by decide⟩, ⟨u, by decide, hu, by decide⟩⟩

theorem witness_LiveProcessesRunInTurn :
    ∃ g, loopers.groups[loopers.gcur]? = some g ∧ g.liveFromCursor = [0, 1] ∧
      ∀ n, n ≤ g.liveFromCursor.length * loopers.groups.length → ∃ t h, loopers.after Config.default n = some t ∧
        t.groups[loopers.gcur]? = some h ∧ h.liveness = g.liveness := by
  refine ⟨_, rfl, by decide, fun n hn => ?_⟩
  have h2 : n ≤ 2 := hn
  have hall : ∀ n, n ≤ 2 → ((loopers.after Config.default n).bind (fun t => t.groups[loopers.gcur]?)).map Group.liveness
      = some [true, true] := by decide
  have hx := hall n h2
  rw [Option.map_eq_some_iff] at hx
  obtain ⟨h, hh, hl⟩ := hx
  rw [Option.bind_eq_some_iff] at hh
  obtain ⟨t, ht, hg⟩ := hh
  exact ⟨t, h, ht, hg, hl.trans (by decide)⟩

/-- The lowest and the highest placement of two words in a core of 64 cells, for a new and for a known player. -/
theorem witness_LoadPlacesProgram :
    (State.ofSize 64).validPlacement [13#32, 13#32].length 0 = true ∧
    (State.ofSize 64).validPlacement [13#32, 13#32].length 62 = true ∧ (1 ≤ 1 ∧ 1 ≤ 9) ∧ (1 ≤ 9 ∧ 9 ≤ 9) ∧
    [13#32, 13#32] ≠ [] ∧ (demo 13#32 []).validPlacement [13#32, 13#32].length 8 = true ∧
    ((demo 13#32 []).groupOf 1).isSome = true := by decide

/-- Players 0 and 10, the empty program, and 65 words for 64 cells. -/
theorem witness_LoadFailureLeavesEmptyGroup :
    ¬(1 ≤ 0 ∧ 0 ≤ 9) ∧ ¬(1 ≤ 10 ∧ 10 ≤ 9) ∧ (1 ≤ 9 ∧ 9 ≤ 9) ∧ ([] : List Word) = [] ∧
    List.replicate 65 13#32 ≠ [] ∧
    ∀ b, (State.ofSize 64).validPlacement (List.replicate 65 13#32).length b = false := by
  refine ⟨by decide, by decide, by decide, rfl, by decide, fun b => ?_⟩
  simp only [State.validPlacement, List.length_replicate, Bool.and_eq_false_iff, decide_eq_false_iff_not]
  exact Or.inl (by simp only [State.ofSize]; omega)

/-- The placements of one word in `tenCells`, at both ends of both free runs, and a load at the last. -/
theorem witness_ValidPlacementsAreOffsetsInFreeRuns :
    1 ≤ 1 ∧ tenCells.validPlacements 1 = [0, 1, 2, 5, 6, 7, 8, 9] ∧ [13#32].length = 1 ∧
    ∃ t, tenCells.load 2 [13#32] 9 = .loaded t := ⟨by decide, by decide, by decide, _, rfl⟩

theorem witness_ReadCellIsBoundsChecked :
    ((0 : Int) ≤ 0 ∧ 0 < ((State.ofSize 64).coreSize : Int)) ∧ ((0 : Int) ≤ 63 ∧ 63 < ((State.ofSize 64).coreSize : Int)) ∧
    ¬((0 : Int) ≤ -1 ∧ -1 < ((State.ofSize 64).coreSize : Int)) ∧
    ¬((0 : Int) ≤ 64 ∧ 64 < ((State.ofSize 64).coreSize : Int)) := by decide

theorem witness_QueriesCountGroups :
    ((battle [13#32] [13#32]).groups.find? (fun g => decide ((g.player : Int) = 2))).isSome = true ∧
    ∀ g ∈ (battle [13#32] [13#32]).groups, (g.player : Int) ≠ 3 := by decide

theorem witness_VerdictCountsRunnableGroups :
    dead.verdict = .draw ∧ loopers.verdict = .winner 1 ∧ (battle [13#32] [13#32]).verdict = .continuing := by decide

/-- A first and a second tick of a cycle that fault, and a first tick that is refused. -/
theorem witness_RunTakesWholeCycles :
    State.reset.groups = [] ∧ loopers.groups ≠ [] ∧ loopers.gcur < loopers.groups.length ∧
    (battle [13#32] [13#32]).gcur < (battle [13#32] [13#32]).groups.length ∧
    ((battle [0x08000000#32] [0x08000000#32]).after Config.default 2).isSome = true ∧
    (loopers.after Config.default (loopers.groups.length - loopers.gcur)).isSome = true ∧
    ((demo 0#32 []).gcur + 0 < (demo 0#32 []).groups.length ∧
      ((demo 0#32 []).after Config.default 0).map (fun u => stop (tick Config.default u))
        = some (some (.inl (.unknownInstruction 0#32 10)))) ∧
    ((battle [13#32] [0#32]).gcur + 1 < (battle [13#32] [0#32]).groups.length ∧
      ((battle [13#32] [0#32]).after Config.default 1).map (fun u => stop (tick Config.default u))
        = some (some (.inl (.unknownInstruction 0#32 8)))) ∧
    ((crowd 11#32 4#32).gcur + 0 < (crowd 11#32 4#32).groups.length ∧
      ((crowd 11#32 4#32).after Config.default 0).map (fun u => stop (tick Config.default u))
        = some (some (.inr (.noSuchGroup 11 4)))) := by decide

end Sys2Proof.Tests
end

/-! The statements about the state (10_state.md): construction, the invariant, the unowned cells, register 0, and which
process records a step can change. `Effect` (Sys2Proof/Laws/Exec.lean) says what one instruction can do; the lemmas here
read off what it does to the group on turn and to the owner tags, and `tick_cases` lifts that to a tick. -/

namespace Sys2Proof.Machine

/-! ## The list of groups with one group replaced -/

theorem map_player_set {gs : List Group} {i : Nat} {g g' : Group} (hg : gs[i]? = some g)
    (hp : g'.player = g.player) : (gs.set i g').map Group.player = gs.map Group.player := by
  obtain ⟨hi, rfl⟩ := List.getElem?_eq_some_iff.mp hg
  have hi' : i < (gs.map Group.player).length := by rwa [List.length_map]
  rw [List.map_set, hp, ← List.getElem_map Group.player]
  exact List.set_getElem_self hi'

/-- Replacing a group by one of the same player with no fewer processes loses no owner. -/
theorem State.tagNames_of_set {s t : State} {i : Nat} {g g' : Group} {o : OwnerTag} (hg : s.groups[i]? = some g)
    (ht : t.groups = s.groups.set i g') (hp : g'.player = g.player) (hl : g.procs.length ≤ g'.procs.length)
    (ho : s.tagNames o) : t.tagNames o := by
  obtain ⟨g₀, hmem, hplayer, hlo, hhi⟩ := ho
  obtain ⟨k, hk⟩ := List.mem_iff_getElem?.mp hmem
  by_cases hik : i = k
  · subst hik
    obtain rfl : g₀ = g := Option.some.inj (hk.symm.trans hg)
    have hi := (List.getElem?_eq_some_iff.mp hg).1
    refine ⟨g', ht ▸ List.mem_set hi g', hp.trans hplayer, hlo, ?_⟩
    unfold Group.nextPid at hhi ⊢
    omega
  · refine ⟨g₀, List.mem_iff_getElem?.mpr ⟨k, ?_⟩, hplayer, hlo, hhi⟩
    rw [ht, List.getElem?_set_ne hik, hk]

/-- The same cells stay well formed as long as no owner is lost. -/
theorem State.coreWf.of_sameCore {s t : State} (hs : s.coreWf) (hc : t.core = s.core)
    (hn : t.coreSize = s.coreSize) (ho : ∀ o, s.tagNames o → t.tagNames o) : t.coreWf := by
  obtain ⟨hcanon, hcells⟩ := hs
  refine ⟨hc ▸ hcanon, fun a c hac => ?_⟩
  obtain ⟨ha, o, hco, hso⟩ := hcells a c (hc ▸ hac)
  exact ⟨hn ▸ ha, o, hco, ho o hso⟩

/-- The invariant after one group has been replaced by a well-formed group of the same player: what is left to show is
that the core is well formed. -/
theorem State.wf_of_set {s t : State} {i : Nat} {g g' : Group} (hs : s.wf) (hg : s.groups[i]? = some g)
    (ht : t.groups = s.groups.set i g') (hp : g'.player = g.player) (hg' : g'.wf)
    (hn : t.coreSize = s.coreSize) (hcur : t.gcur = s.gcur) (hcore : t.coreWf) : t.wf := by
  obtain ⟨hlo, hhi, -, hgroups, hplayers, hgcur⟩ := hs
  refine ⟨hn ▸ hlo, hn ▸ hhi, hcore, fun h hmem => ?_, ?_, ?_⟩
  · rw [ht] at hmem
    rcases List.mem_or_eq_of_mem_set hmem with hold | rfl
    · exact hgroups h hold
    · exact hg'
  · rwa [ht, map_player_set hg hp]
  · rwa [ht, hcur, List.length_set]

/-! ## What an instruction does to the group of the process on turn -/

/-- The group of the process at `i` after its instruction: its record is `q`, and the children `cs` stand at the end of
the list. -/
def Group.ran (g : Group) (i : Nat) (cs : List Process) (q : Process) : Group :=
  { g with procs := (g.procs ++ cs).set i q }

@[simp] theorem Group.ran_player (g : Group) (i : Nat) (cs : List Process) (q : Process) :
    (g.ran i cs q).player = g.player := rfl
@[simp] theorem Group.ran_pcur (g : Group) (i : Nat) (cs : List Process) (q : Process) :
    (g.ran i cs q).pcur = g.pcur := rfl
@[simp] theorem Group.ran_last (g : Group) (i : Nat) (cs : List Process) (q : Process) :
    (g.ran i cs q).last = g.last := rfl
@[simp] theorem Group.ran_procs (g : Group) (i : Nat) (cs : List Process) (q : Process) :
    (g.ran i cs q).procs = (g.procs ++ cs).set i q := rfl

/-- A process of a group after an instruction is the one that ran, an old one, or a child. -/
theorem Group.ran_procs_cases {g : Group} {i j : Nat} {cs : List Process} {p q : Process}
    (h : (g.ran i cs q).procs[j]? = some p) :
    (j = i ∧ p = q) ∨ g.procs[j]? = some p ∨ (g.procs.length ≤ j ∧ cs[j - g.procs.length]? = some p) := by
  rw [Group.ran_procs, List.getElem?_set] at h
  split at h
  · next hij =>
    split at h
    · exact Or.inl ⟨hij.symm, (Option.some.inj h).symm⟩
    · cases h
  · rw [List.getElem?_append] at h
    split at h
    · exact Or.inr (Or.inl h)
    · next hj => exact Or.inr (Or.inr ⟨Nat.le_of_not_lt hj, h⟩)

section

variable {s t : State} {r : Running} {cs : List Process} {q : Process}

/-- The machine's groups after an instruction: the group of the process on turn is replaced. -/
theorem Effect.groups_eq_set (e : Effect s r cs q t) (hr : s.running = some r) :
    t.groups = s.groups.set r.group (r.g.ran r.proc cs q) := by
  obtain ⟨-, hg, -⟩ := State.running_spec hr
  rw [e.groups, List.modify_eq_set_getElem?, hg]
  rfl

theorem Effect.group_eq (e : Effect s r cs q t) (hr : s.running = some r) :
    t.groups[r.group]? = some (r.g.ran r.proc cs q) := by
  obtain ⟨-, hg, -⟩ := State.running_spec hr
  rw [e.groups_eq_set hr, List.getElem?_set_self (List.getElem?_eq_some_iff.mp hg).1]

theorem State.running_lt (hr : s.running = some r) : r.proc < r.g.procs.length := by
  obtain ⟨-, -, -, hp, -⟩ := State.running_spec hr
  exact (List.getElem?_eq_some_iff.mp hp).1

/-! ## What an instruction does to the invariant -/

/-- A child of a process with a program meets the invariant at the end of its parent's group. -/
theorem forkChild_wf (a : Word) (hp : r.p.wf r.g.player r.proc) :
    (forkChild r a).wf r.g.player r.g.procs.length := by
  obtain ⟨-, hplayer, hprog, -⟩ := hp
  exact ⟨rfl, hplayer, hprog, by simp [forkChild]⟩

/-- The group of the process on turn meets the invariant after the instruction. -/
theorem Effect.ran_wf (e : Effect s r cs q t) (hr : s.running = some r) (hg : r.g.wf) :
    (r.g.ran r.proc cs q).wf := by
  obtain ⟨-, -, -, hp, -⟩ := State.running_spec hr
  obtain ⟨hlo, hhi, hpcur, hlast, hprocs⟩ := hg
  have hlen : r.g.procs.length ≤ (r.g.ran r.proc cs q).procs.length := by simp
  have hpwf := hprocs r.proc r.p hp
  refine ⟨hlo, hhi, ?_, fun i hi => ?_, fun j p hj => ?_⟩
  · rw [Group.ran_pcur]; omega
  · have := hlast i hi; omega
  · rcases Group.ran_procs_cases hj with ⟨rfl, rfl⟩ | hold | ⟨hle, hchild⟩
    · obtain ⟨hid, hplayer, hprog, hzero⟩ := hpwf
      obtain ⟨hid', hplayer', hprog'⟩ := e.identity
      exact ⟨hid'.trans hid, hplayer'.trans hplayer, hprog' ▸ hprog, e.zero.trans hzero⟩
    · exact hprocs j p hold
    · rcases e.children with rfl | ⟨a, rfl⟩
      · cases hchild
      · obtain ⟨hpa, hj0⟩ : forkChild r a = p ∧ j - r.g.procs.length = 0 := by
          simpa [List.getElem?_singleton, and_comm] using hchild
        obtain rfl : j = r.g.procs.length := by omega
        exact hpa ▸ forkChild_wf a hpwf

/-- The tag of every cell an instruction writes names a process that exists after it. -/
theorem Effect.tagNames_written (e : Effect s r cs q t) (hr : s.running = some r)
    (hp : r.p.wf r.g.player r.proc) {pid : Nat} (hpid : pid = r.p.id ∨ (cs ≠ [] ∧ pid = r.g.nextPid)) :
    t.tagNames ⟨r.p.player, pid⟩ := by
  obtain ⟨hid, hplayer, -, -⟩ := hp
  have hlt := State.running_lt hr
  refine ⟨_, List.mem_of_getElem? (e.group_eq hr), hplayer.symm, ?_⟩
  simp only [Group.nextPid, Group.ran_procs, List.length_set, List.length_append] at hpid ⊢
  rcases hpid with rfl | ⟨hcs, rfl⟩
  · omega
  · have := List.length_pos_iff.mpr hcs
    omega

theorem Effect.keeps_coreWf (e : Effect s r cs q t) (hr : s.running = some r)
    (hp : r.p.wf r.g.player r.proc) (hs : s.coreWf) : t.coreWf := by
  obtain ⟨hcanon, hcells⟩ := hs
  obtain ⟨-, hg, -⟩ := State.running_spec hr
  refine ⟨e.coreWf hcanon, fun a c hac => ?_⟩
  obtain ⟨-, hc, hread⟩ := Memory.read_of_mem (e.coreWf hcanon) hac
  rw [e.coreSize]
  rcases e.cells a with hsame | ⟨ha, w, pid, hpid, hnew⟩
  · rw [hsame] at hread
    obtain ⟨ha, o, ho, htag⟩ := hcells a c (hread ▸ Memory.mem_of_read (hread ▸ hc))
    exact ⟨ha, o, ho, State.tagNames_of_set hg (e.groups_eq_set hr) rfl (by simp) htag⟩
  · rw [hnew] at hread
    exact ⟨ha, _, hread ▸ rfl, e.tagNames_written hr hp hpid⟩

/-- An instruction keeps the invariant. -/
theorem Effect.keeps_wf (e : Effect s r cs q t) (hr : s.running = some r) (hs : s.wf) : t.wf := by
  obtain ⟨-, hg, -, hp, -⟩ := State.running_spec hr
  have ⟨_, _, hcore, hgroups, _, _⟩ := hs
  have hgwf := hgroups r.g (List.mem_of_getElem? hg)
  have ⟨_, _, _, _, hprocs⟩ := hgwf
  exact State.wf_of_set hs hg (e.groups_eq_set hr) rfl (e.ran_wf hr hgwf) e.coreSize e.gcur
    (e.keeps_coreWf hr (hprocs r.proc r.p hp) hcore)

end

/-! ## The end of a tick -/

/-- Moving the machine's cursor keeps the invariant when there is a group to move to. -/
theorem State.rotate_wf {s : State} (hs : s.wf) (hg : s.groups ≠ []) : s.rotate.wf := by
  obtain ⟨hlo, hhi, hcore, hgroups, hplayers, -⟩ := hs
  refine ⟨hlo, hhi, hcore, hgroups, hplayers, ?_⟩
  have := Nat.mod_lt (s.gcur + 1) (List.length_pos_iff.mpr hg)
  rw [State.rotate_gcur, State.rotate_groups]
  omega

theorem Group.served_wf {g : Group} {i : Nat} (hg : g.wf) (hi : i < g.procs.length) : (g.served i).wf := by
  obtain ⟨hlo, hhi, -, -, hprocs⟩ := hg
  refine ⟨hlo, hhi, ?_, fun j hj => ?_, hprocs⟩
  · have := Nat.mod_lt (i + 1) (Nat.zero_lt_of_lt hi)
    rw [Group.served_pcur, Group.served_procs]
    omega
  · cases hj; exact hi

/-- The end of a tick keeps the invariant when the process that ran is in its group's list. -/
theorem State.afterRun_wf {s : State} {r : Running} {g : Group} (hs : s.wf) (hg : s.groups[r.group]? = some g)
    (hi : r.proc < g.procs.length) : (s.afterRun r).wf := by
  have ⟨_, _, hcore, hgroups, _, _⟩ := hs
  have hset : (s.modifyGroup r.group (fun g => g.served r.proc)).groups
      = s.groups.set r.group (g.served r.proc) := by
    rw [State.modifyGroup_groups, List.modify_eq_set_getElem?, hg]
    rfl
  have hserved := Group.served_wf (hgroups g (List.mem_of_getElem? hg)) hi
  refine State.rotate_wf (State.wf_of_set hs hg hset rfl hserved rfl rfl ?_) (fun hnil => ?_)
  · exact hcore.of_sameCore rfl rfl (fun _ => State.tagNames_of_set hg hset rfl Nat.le.refl)
  · have := List.mem_of_getElem? hg
    rw [hset, List.set_eq_nil_iff] at hnil
    simp [hnil] at this

/-! ## One tick -/

/-- A tick under any parameters keeps the invariant. -/
theorem tick_keeps_wf {cfg : Config} {s t : State} (hs : s.wf) (h : tick cfg s = .next t) : t.wf := by
  rcases tick_cases h with ⟨-, rfl⟩ | ⟨hg, -, rfl⟩ | ⟨r, cs, q, u, -, hr, -, e, rfl⟩
  · exact hs
  · exact State.rotate_wf hs hg
  · have hlt := State.running_lt hr
    exact State.afterRun_wf (e.keeps_wf hr hs) (e.group_eq hr) (by simp; omega)

/-- A tick under any parameters changes a cell only by giving it an owner. -/
theorem tick_read_cases {cfg : Config} {s t : State} (h : tick cfg s = .next t) (a : Nat) :
    Memory.read t.core a = Memory.read s.core a ∨ ∃ o, (Memory.read t.core a).owner = some o := by
  rcases tick_cases h with ⟨-, rfl⟩ | ⟨-, -, rfl⟩ | ⟨r, cs, q, u, -, -, -, e, rfl⟩
  · exact Or.inl rfl
  · exact Or.inl rfl
  · rcases e.cells a with hsame | ⟨-, w, pid, -, hnew⟩
    · exact Or.inl hsame
    · exact Or.inr ⟨_, congrArg Cell.owner hnew⟩

/-- A tick under any parameters changes the record of no process but the one on turn. -/
theorem tick_procAt_other {cfg : Config} {s t : State} {k n : Nat} {p : Process} (h : tick cfg s = .next t)
    (hp : s.procAt k n = some p) (hkn : ∀ r, s.running = some r → (k, n) ≠ (r.group, r.proc)) :
    t.procAt k n = some p := by
  rcases tick_cases h with ⟨-, rfl⟩ | ⟨-, -, rfl⟩ | ⟨r, cs, q, u, -, hr, -, e, rfl⟩
  · exact hp
  · exact hp
  · rw [State.procAt_afterRun]
    exact e.procAt_other (hkn r hr) hp

/-- The process on turn is still in its place after a tick, with its identity. -/
theorem tick_procAt_running {cfg : Config} {s t : State} {r : Running} (h : tick cfg s = .next t)
    (hr : s.running = some r) : ∃ q, t.procAt r.group r.proc = some q ∧ SameIdentity r.p q := by
  rcases tick_cases h with ⟨hg, -⟩ | ⟨-, hnone, -⟩ | ⟨r', cs, q, u, -, hr', -, e, rfl⟩
  · obtain ⟨-, hgr, -⟩ := State.running_spec hr
    simp [hg] at hgr
  · rw [hr] at hnone; cases hnone
  · obtain rfl : r = r' := Option.some.inj (hr.symm.trans hr')
    exact ⟨q, by rw [State.procAt_afterRun]; exact Effect.procAt_self hr e, e.identity⟩

/-! ## Construction and registers -/

theorem construct_error {n : Nat} (h : ¬(1 ≤ n ∧ n ≤ 65535)) : construct n = .error .badCoreSize := if_neg h

theorem construct_ok {n : Nat} (h : 1 ≤ n ∧ n ≤ 65535) : construct n = .ok (State.ofSize n) := if_pos h

theorem State.ofSize_read (n a : Nat) :
    Memory.read (State.ofSize n).core a = { word := 13#32, owner := none } := rfl

/-- Every cell of the reset machine is unowned and holds the forced-halt word. -/
theorem State.reset_unownedHalt : State.reset.unownedHalt := fun _ _ => rfl

end Sys2Proof.Machine

/-! ## The statements -/

namespace Sys2Proof.Proofs

open Sys2Proof Sys2Proof.Machine

/-- Settles O11: an instruction replaces one group by a well-formed one and tags its cells with processes that exist;
the end of the tick moves the two cursors inside their lists. -/
theorem stepKeepsInvariant : Obligations.StepKeepsInvariant :=
  ⟨fun _ _ hs h => tick_keeps_wf hs h, fun _ _ _ hs h => tick_keeps_wf hs h⟩

/-- Settles O13: a cell without an owner after the step was not written by it. -/
theorem unownedCellsHoldHaltWord : Obligations.UnownedCellsHoldHaltWord := by
  refine ⟨State.reset_unownedHalt, fun s t hs h a ha => ?_⟩
  rcases tick_read_cases h a with hsame | ⟨o, ho⟩
  · rw [hsame] at ha ⊢
    exact hs a ha
  · rw [ha] at ho; cases ho

/-- Settles O46: an instruction of the process on turn replaces its record and appends children, and the end of the tick
moves cursors only. -/
theorem stepChangesNoOtherProcess : Obligations.StepChangesNoOtherProcess :=
  fun _ _ _ _ _ h hp hkn => tick_procAt_other h hp hkn

/-- Settles O47: the process on turn keeps its identity and is alive, so a dead process is one of the others. -/
theorem deadProcessesNeverChange : Obligations.DeadProcessesNeverChange := by
  intro cfg s t k n p h hp
  by_cases hturn : ∃ r, s.running = some r ∧ (k, n) = (r.group, r.proc)
  · obtain ⟨r, hr, hkn⟩ := hturn
    obtain ⟨rfl, rfl⟩ := Prod.mk.inj hkn
    obtain rfl : p = r.p := Option.some.inj (hp.symm.trans (State.running_procAt hr))
    obtain ⟨-, -, -, -, halive⟩ := State.running_spec hr
    obtain ⟨q, hq, hid⟩ := tick_procAt_running h hr
    exact ⟨q, hq, hid, fun hdead => by rw [halive] at hdead; cases hdead⟩
  · have hp' := tick_procAt_other h hp (fun r hr hkn => hturn ⟨r, hr, hkn⟩)
    exact ⟨p, hp', ⟨rfl, rfl, rfl⟩, fun _ => rfl⟩

/-- Settles O9: `Construct` lists no cell, and an unlisted cell reads as the unwritten one. -/
theorem constructGivesUnwrittenCore : Obligations.ConstructGivesUnwrittenCore :=
  ⟨fun _ h => construct_error h,
    fun n hlo hhi => ⟨State.ofSize n, construct_ok ⟨hlo, hhi⟩, rfl, fun a _ => State.ofSize_read n a⟩⟩

/-- Settles O14: register 0 is read as 0 whatever the register file holds, so whatever was written before. -/
theorem registerZeroReadsZero : Obligations.RegisterZeroReadsZero :=
  ⟨fun ws p => Process.read_zero (ws.foldl (fun q w => q.write w.1 w.2) p), Process.write_zero⟩

end Sys2Proof.Proofs

/-! The statements about the core (20_memory.md): which instructions write it, how a step tags the cells it writes, what
a fetch gives of an owned cell, and the host's `ReadCell`. -/

namespace Sys2Proof.Machine

/-! ## Instructions that leave the core alone -/

/-- A meaning that needs the process on turn leaves the core alone if it does so for each process. -/
theorem SameCore.of_withRunning {s t : State} {f : Running → Outcome}
    (hf : ∀ r, f r = .next t → SameCore s t) (h : s.withRunning f = .next t) : SameCore s t := by
  unfold State.withRunning at h
  split at h
  · cases h; exact fun _ => rfl
  · exact hf _ h

/-- An instruction that changes the executing process only leaves the core alone. -/
theorem SameCore.of_updateRunning {s t : State} {f : Process → Process} (h : s.updateRunning f = .next t) :
    SameCore s t :=
  SameCore.of_withRunning (fun _ hr => by cases hr; exact fun _ => rfl) h

theorem SameCore.of_lw {rt rs : Reg} {imm : Int} {s t : State} (h : execLw rt rs imm s = .next t) : SameCore s t := by
  refine SameCore.of_withRunning (fun r hr => ?_) h
  dsimp only at hr
  split at hr <;> cases hr <;> exact fun _ => rfl

/-- Of the services, two may be refused; each of the others writes register 1 or kills. -/
theorem SameCore.of_service {v : Service} {s t : State} {r : Running} (h : runService v s r = .next t) :
    SameCore s t := by
  cases v <;> simp only [runService] at h
  case score | runnableProcesses =>
    split at h
    · cases h; exact fun _ => rfl
    · cases h
  all_goals cases h; exact fun _ => rfl

theorem SameCore.of_syscall {s t : State} (h : execSyscall s = .next t) : SameCore s t := by
  refine SameCore.of_withRunning (fun r hr => ?_) h
  split at hr
  · exact SameCore.of_service hr
  · cases hr; exact fun _ => rfl

/-! ## The cells a tick writes -/

/-- A tick under any parameters changes a cell only inside the core, and tags it for the player of the process that
ran. -/
theorem tick_cell_cases {cfg : Config} {s t : State} (h : tick cfg s = .next t) (a : Nat) :
    Memory.read t.core a = Memory.read s.core a ∨
    a < s.coreSize ∧ ∃ r w pid, s.running = some r ∧ Memory.read t.core a = ⟨w, some ⟨r.p.player, pid⟩⟩ := by
  rcases tick_cases h with ⟨-, rfl⟩ | ⟨-, -, rfl⟩ | ⟨r, cs, q, u, -, hr, -, e, rfl⟩
  · exact Or.inl rfl
  · exact Or.inl rfl
  · rcases e.cells a with hsame | ⟨ha, w, pid, -, hnew⟩
    · exact Or.inl hsame
    · exact Or.inr ⟨ha, r, w, pid, hr, hnew⟩

/-! ## The store -/

/-- A store inside the core: the word with the storing process's tag, and the advance. -/
theorem execSw_inRange {rt rs : Reg} {imm : Int} {s : State} {r : Running} (hr : s.running = some r)
    (ha : s.inRange (effectiveAddress r.p rs imm) = true) :
    execSw rt rs imm s = .next
      ((s.memWrite (effectiveAddress r.p rs imm) (r.p.read rt) ⟨r.p.player, r.p.id⟩).setProc r.group r.proc
        r.p.advance) := by
  rw [execSw, State.withRunning_eq hr]
  exact if_pos ha

/-! ## The fetch -/

/-- An owned cell is foreign exactly to the players other than its owner's. -/
theorem Cell.foreignTo_owned (w : Word) (o : OwnerTag) (k : Nat) :
    (⟨w, some o⟩ : Cell).foreignTo k = decide (o.player ≠ k) := rfl

/-- The fetch of an owned cell: its word for the owner's group, the forced-halt word for any other. -/
theorem fetch_owned {s : State} {g : Group} {p : Process} {w : Word} {o : OwnerTag}
    (ha : s.inRange (sval p.pc) = true) (hc : Memory.read s.core (sval p.pc).toNat = ⟨w, some o⟩) :
    fetch s g p = if g.player = o.player then w else Config.hltWord := by
  have hcell : s.cellAt (sval p.pc) = ⟨w, some o⟩ := hc
  rw [fetch, if_pos ha, State.memRead, hcell, Cell.foreignTo_owned]
  by_cases hg : g.player = o.player
  · simp [hg]
  · simp [hg, Ne.symm hg]

/-- A fetched word other than the forced-halt word is the word of a cell inside the core that is not foreign. -/
theorem fetch_ne_hltWord {s : State} {g : Group} {p : Process} (h : fetch s g p ≠ Config.hltWord) :
    s.inRange (sval p.pc) = true ∧ (s.cellAt (sval p.pc)).foreignTo g.player = false ∧
    (s.cellAt (sval p.pc)).word ≠ Config.hltWord := by
  unfold fetch at h
  split at h
  · next ha =>
    split at h
    · exact absurd rfl h
    · next hf => exact ⟨ha, Bool.eq_false_iff.mpr hf, h⟩
  · exact absurd rfl h

/-- A cell with an owner that is not foreign is owned by the group itself. -/
theorem Cell.owner_of_not_foreign {c : Cell} {k : Nat} (hf : c.foreignTo k = false) (ho : c.owner ≠ none) :
    ∃ o, c.owner = some o ∧ o.player = k := by
  obtain ⟨w, _ | o⟩ := c
  · exact absurd rfl ho
  · exact ⟨o, rfl, by simpa [Cell.foreignTo_owned] using hf⟩

theorem decode_hltWord : decode Config.hltWord = some .hlt := by decide

end Sys2Proof.Machine

/-! ## The statements about the core -/

namespace Sys2Proof.Proofs

open Sys2Proof Sys2Proof.Machine

/-- Settles O22: after the store the cell carries the storer's tag, and the fetch of an owned cell asks for its player
only. -/
theorem storeIsSeenByNextFetch : Obligations.StoreIsSeenByNextFetch := by
  intro rt rs imm s t r hr ha h g p hpc
  obtain rfl := Host.Outcome.next.inj ((execSw_inRange hr ha).symm.trans h)
  refine fetch_owned (o := ⟨r.p.player, r.p.id⟩) ?_ ?_
  · rw [sval, hpc]; exact ha
  · rw [sval, hpc]; exact State.memWrite_read_self _ _ _ _

/-- Settles O42: outside the core and on a foreign cell the fetch gives a halt, and an unowned cell holds one. -/
theorem onlyOwnCodeExecutes : Obligations.OnlyOwnCodeExecutes := by
  intro s r i hs _ hi hne
  have hfetch : fetch s r.g r.p ≠ Config.hltWord := fun hw => by
    rw [hw, decode_hltWord] at hi
    exact hne (Option.some.inj hi).symm
  obtain ⟨ha, hforeign, hword⟩ := fetch_ne_hltWord hfetch
  obtain ⟨hlo, hhi⟩ := (State.inRange_iff s _).mp ha
  exact ⟨hlo, hhi, Cell.owner_of_not_foreign hforeign (fun ho => hword (hs _ ho))⟩

/-- Settles O48: a written cell has an owner, so no cell loses its own. -/
theorem stepTagsEveryCellItWrites : Obligations.StepTagsEveryCellItWrites := by
  intro s t a h
  refine ⟨tick_cell_cases h a, fun ho => ?_⟩
  rcases tick_cell_cases h a with hsame | ⟨-, r, w, pid, -, hnew⟩
  · rwa [hsame]
  · rw [hnew]; exact Option.some_ne_none _

/-- Settles O49: seventeen instructions are defined as a change of the executing process only; `lw`, `hlt` and `syscall`
have cases, and none of these touches the core. -/
theorem onlyStoreAndForkWriteCore : Obligations.OnlyStoreAndForkWriteCore := by
  intro i s t hsw hfrk h
  cases i with
  | sw rt rs imm => exact absurd rfl hsw
  | frk rt => exact absurd rfl hfrk
  | lw rt rs imm => exact SameCore.of_lw h
  | syscall => exact SameCore.of_syscall h
  | hlt => exact SameCore.of_withRunning (fun r hr => by cases hr; exact fun _ => rfl) h
  | sllv | srlv | jr | mult | divu | sub | xor | slt | blez | bgez | j | bne | slti | andi | opn | rfrk | rsw =>
    simp only [exec] at h
    exact SameCore.of_updateRunning h

/-- Settles O55: the test of `ReadCell` is the one of `inRange`. -/
theorem readCellIsBoundsChecked : Obligations.ReadCellIsBoundsChecked := by
  intro s a
  rw [← State.inRange_iff]
  exact ⟨fun h => if_pos h, fun h => if_neg h⟩

end Sys2Proof.Proofs

/-! The statements about the decoder and the encoder (30_encoding.md). An admitted entry selects a word by the word's
opcode and, at opcodes 0 and 1, one more field; the key is a name for this choice, and so are a mask and its match. -/

namespace Sys2Proof

/-! ## The fields of a word -/

theorem bits_lt (w : Word) (hi lo : Nat) : bits w hi lo < 2 ^ (hi - lo + 1) := Nat.mod_lt _ (Nat.two_pow_pos _)

theorem opcodeField_lt (w : Word) : opcodeField w < 64 := bits_lt w 31 26
theorem functField_lt (w : Word) : functField w < 64 := bits_lt w 5 0

theorem zimmField_wf (w : Word) : unsigned16 (zimmField w) = true :=
  decide_eq_true (Nat.le_of_lt_succ (bits_lt w 15 0))

theorem simmField_wf (w : Word) : signed16 (simmField w) = true := by
  have hlt : bits w 15 0 < 65536 := bits_lt w 15 0
  have hrange : -32768 ≤ simmField w ∧ simmField w ≤ 32767 := by
    unfold simmField sext
    split <;> omega
  rw [signed16, decide_eq_true hrange.1, decide_eq_true hrange.2, Bool.and_self]

theorem targetField_wf (w : Word) : signed26 (targetField w) = true := by
  have hlt : bits w 25 0 < 67108864 := bits_lt w 25 0
  have hrange : -33554432 ≤ targetField w ∧ targetField w ≤ 33554431 := by
    unfold targetField sext
    split <;> omega
  rw [signed26, decide_eq_true hrange.1, decide_eq_true hrange.2, Bool.and_self]

/-- The operands read from a word are in the range of their fields. -/
theorem instrOf_wf (m : Mnemonic) (w : Word) : (instrOf m w).wellFormed = true := by
  cases m with
  | blez | bgez | bne | slti | lw | sw => exact simmField_wf w
  | j => exact targetField_wf w
  | andi => exact zimmField_wf w
  | sllv | srlv | jr | syscall | hlt | mult | divu | sub | xor | slt | frk | opn | rfrk | rsw => rfl

/-! ## Fields by masks and shifts -/

/-- A mask of ones over a field keeps the field in its place. -/
theorem and_fieldMask (w : Word) (hi lo : Nat) :
    w.toNat &&& (2 ^ (hi - lo + 1) - 1) <<< lo = bits w hi lo <<< lo := by
  refine Nat.eq_of_testBit_eq fun i => ?_
  by_cases hle : lo ≤ i
  · simp [bits, hle, Nat.testBit_mod_two_pow, Nat.testBit_div_two_pow, Bool.and_comm]
  · simp [hle]

theorem toNat_and_opcodeMask (w : Word) : (w &&& 0xFC000000#32).toNat = opcodeField w * 2 ^ 26 := by
  rw [← Nat.shiftLeft_eq]
  exact and_fieldMask w 31 26

/-- A mask over the opcode and a lower field gives the two side by side. -/
theorem and_opcodeMask_or {hi lo : Nat} (w : Word) (hlo : lo ≤ hi) (hhi : hi < 26) :
    w.toNat &&& ((2 ^ 6 - 1) <<< 26 ||| (2 ^ (hi - lo + 1) - 1) <<< lo)
      = opcodeField w * 2 ^ 26 + bits w hi lo * 2 ^ lo := by
  have hlow : bits w hi lo <<< lo < 2 ^ 26 :=
    calc bits w hi lo <<< lo = bits w hi lo * 2 ^ lo := Nat.shiftLeft_eq _ _
      _ < 2 ^ (hi - lo + 1) * 2 ^ lo := Nat.mul_lt_mul_of_pos_right (bits_lt w hi lo) (Nat.two_pow_pos lo)
      _ = 2 ^ (hi + 1) := by rw [← Nat.pow_add]; congr 1; omega
      _ ≤ 2 ^ 26 := Nat.pow_le_pow_right (by decide) hhi
  rw [Nat.and_or_distrib_left, and_fieldMask w 31 26, and_fieldMask, ← Nat.shiftLeft_add_eq_or_of_lt hlow,
    Nat.shiftLeft_eq, Nat.shiftLeft_eq, opcodeField]

theorem toNat_and_functMask (w : Word) :
    (w &&& 0xFC00003F#32).toNat = opcodeField w * 2 ^ 26 + functField w :=
  (and_opcodeMask_or (hi := 5) (lo := 0) w (by decide) (by decide)).trans (by rw [functField, pow_zero, mul_one])

theorem toNat_and_rtMask (w : Word) :
    (w &&& 0xFC1F0000#32).toNat = opcodeField w * 2 ^ 26 + bits w 20 16 * 2 ^ 16 :=
  and_opcodeMask_or (hi := 20) (lo := 16) w (by decide) (by decide)

/-- The match of an `rt` selector at opcode 1 (R102) as a sum. -/
theorem toNat_rtMatch {rt : Nat} (h : rt < 32) :
    (0x04000000#32 ||| BitVec.ofNat 32 rt <<< 16).toNat = 2 ^ 26 + rt * 2 ^ 16 := by
  have hrt : (BitVec.ofNat 32 rt <<< 16).toNat = rt * 2 ^ 16 := by
    rw [BitVec.toNat_shiftLeft, BitVec.toNat_ofNat, Nat.shiftLeft_eq]
    omega
  rw [BitVec.toNat_or, hrt]
  exact (Nat.shiftLeft_add_eq_or_of_lt (by omega : rt * 2 ^ 16 < 2 ^ 26) 1).symm

theorem toNat_shiftRight_opcode (w : Word) : (w >>> 26).toNat = opcodeField w := by
  have := w.isLt
  rw [BitVec.toNat_ushiftRight, Nat.shiftRight_eq_div_pow, opcodeField, bits]
  omega

theorem toNat_and_funct (w : Word) : (w &&& 0x3F#32).toNat = functField w :=
  (and_fieldMask w 5 0).trans (Nat.shiftLeft_zero)

theorem toNat_shiftRight_and_rt (w : Word) : ((w >>> 16) &&& 0x1F#32).toNat = bits w 20 16 := by
  rw [BitVec.toNat_and, BitVec.toNat_ushiftRight, Nat.shiftRight_eq_div_pow]
  exact Nat.and_two_pow_sub_one_eq_mod _ 5

/-! ## The words an entry selects -/

/-- The fields of the word are those the entry asks for: the opcode, with the funct at opcode 0 and the `rt` selector at
opcode 1 (R97, R98). `selects_iff_key` ties it to the dispatch key. -/
def TableEntry.Selects (e : TableEntry) (w : Word) : Prop :=
  opcodeField w = e.opcode ∧ (e.opcode = 0 → functField w = e.second) ∧ (e.opcode = 1 → bits w 20 16 = e.second)

section

variable {w : Word}

theorem TableEntry.selects_of_opcode_zero (h : opcodeField w = 0) (e : TableEntry) :
    e.Selects w ↔ e.opcode = 0 ∧ functField w = e.second := by
  unfold TableEntry.Selects; omega

theorem TableEntry.selects_of_opcode_one (h : opcodeField w = 1) (e : TableEntry) :
    e.Selects w ↔ e.opcode = 1 ∧ bits w 20 16 = e.second := by
  unfold TableEntry.Selects; omega

theorem TableEntry.selects_of_opcode_other (h0 : opcodeField w ≠ 0) (h1 : opcodeField w ≠ 1) (e : TableEntry) :
    e.Selects w ↔ opcodeField w = e.opcode := by
  unfold TableEntry.Selects; omega

end

/-- The three-way derivation of R97 and R98, with the key of opcode 1 as a sum. -/
def keyOf (opcode funct rt : Nat) : Nat :=
  if opcode = 0 then funct else if opcode = 1 then 2 ^ 26 + rt * 2 ^ 16 else opcode * 2 ^ 26

theorem selectorKey_eq {rt : Nat} (h : rt < 32) : ((1 <<< 10) ||| rt) <<< 16 = 2 ^ 26 + rt * 2 ^ 16 := by
  rw [← Nat.shiftLeft_add_eq_or_of_lt (by omega : rt < 2 ^ 10), Nat.shiftLeft_eq]
  omega

theorem key_eq_keyOf (w : Word) : key w = keyOf (opcodeField w) (functField w) (bits w 20 16) := by
  unfold key keyOf
  split
  · rfl
  · split
    · next h1 => rw [h1, selectorKey_eq (bits_lt w 20 16)]
    · exact Nat.shiftLeft_eq _ _

theorem entryKey_eq_keyOf {e : TableEntry} (he : entryOk e = true) :
    entryKey e = keyOf e.opcode e.second e.second := by
  obtain ⟨-, -, hone, -⟩ := entryOk_spec he
  unfold entryKey keyOf
  split
  · rfl
  · split
    · next h1 => rw [selectorKey_eq (Nat.lt_succ_of_le (hone h1).1)]
    · exact Nat.shiftLeft_eq _ _

/-- Key equality is agreement of the fields: the keys of opcode 0 are below `2 ^ 26`, those of opcode 1 below `2 ^ 27`,
and the others are the multiples of `2 ^ 26` from there on. -/
theorem selects_iff_key {e : TableEntry} (he : entryOk e = true) (w : Word) : e.Selects w ↔ key w = entryKey e := by
  obtain ⟨-, hsecond, hone, -⟩ := entryOk_spec he
  have hfn := functField_lt w
  have hrt : bits w 20 16 < 32 := bits_lt w 20 16
  rw [key_eq_keyOf, entryKey_eq_keyOf he]
  unfold TableEntry.Selects keyOf
  split_ifs <;> omega

/-! ## The key of a packed word -/

section

variable {e : TableEntry}

/-- An R-format word carries its entry's funct, and R-format entries are at opcode 0. -/
theorem key_packR (he : entryOk e = true) (hf : e.name.format = .R) {rs rt rd : Nat} (hrs : rs < 32) (hrt : rt < 32)
    (hrd : rd < 32) : key (packR e.opcode rs rt rd 0 e.second) = entryKey e := by
  obtain ⟨hop, hsecond, -, hR⟩ := entryOk_spec he
  obtain ⟨hopcode, -, -, -, -, hfunct⟩ := packR_fields hop hrs hrt hrd (by decide : 0 < 32) hsecond
  have h0 := hR.mp hf
  exact (selects_iff_key he _).mp ⟨hopcode, fun _ => hfunct, fun h1 => by omega⟩

/-- An I-format word carries its entry's selector where the key needs it. -/
theorem key_packI (he : entryOk e = true) (hf : e.name.format = .I) {rs rt imm : Nat} (hrs : rs < 32) (hrt : rt < 32)
    (himm : imm < 65536) (hsel : e.opcode = 1 → rt = e.second) : key (packI e.opcode rs rt imm) = entryKey e := by
  obtain ⟨hop, -, -, hR⟩ := entryOk_spec he
  obtain ⟨hopcode, -, hrtField, -⟩ := packI_fields hop hrs hrt himm
  exact (selects_iff_key he _).mp
    ⟨hopcode, fun h0 => absurd (hR.mpr h0) (by rw [hf]; decide), fun h1 => hrtField.trans (hsel h1)⟩

/-- An instruction whose `rt` is no operand has the selector there. -/
theorem key_packI_rtSelector (he : entryOk e = true) (hf : e.name.format = .I) {rs imm : Nat} (hrs : rs < 32)
    (himm : imm < 65536) : key (packI e.opcode rs (rtSelector e) imm) = entryKey e :=
  key_packI he hf hrs (rtSelector_lt he) himm fun h1 => if_pos h1

/-- W5 of R99: an instruction that needs its `rt` field is not at opcode 1. -/
theorem opcode_ne_one (he : entryOk e = true) (hrt : e.name.rtFree = false) : e.opcode ≠ 1 := fun h1 => by
  obtain ⟨-, -, hone, -⟩ := entryOk_spec he
  exact absurd (hone h1).2 (Bool.eq_false_iff.mp hrt)

/-- An instruction whose `rt` is an operand may have any register there. -/
theorem key_packI_operand (he : entryOk e = true) (hf : e.name.format = .I) (hfree : e.name.rtFree = false)
    {rs imm : Nat} (hrs : rs < 32) (rt : Reg) (himm : imm < 65536) : key (packI e.opcode rs rt imm) = entryKey e :=
  key_packI he hf hrs rt.isLt himm fun h1 => absurd h1 (opcode_ne_one he hfree)

theorem key_packJ (he : entryOk e = true) (hf : e.name.format = .J) (hfree : e.name.rtFree = false) {target : Nat}
    (ht : target < 67108864) : key (packJ e.opcode target) = entryKey e := by
  obtain ⟨hop, -, -, hR⟩ := entryOk_spec he
  obtain ⟨hopcode, -⟩ := packJ_fields hop ht
  exact (selects_iff_key he _).mp
    ⟨hopcode, fun h0 => absurd (hR.mpr h0) (by rw [hf]; decide), fun h1 => absurd h1 (opcode_ne_one he hfree)⟩

/-- Key symmetry (R118): an assembled word has the key of its entry. -/
theorem key_encodeEntry (he : entryOk e = true) {i : Instr} (hn : e.name = i.mnemonic) :
    key (encodeEntry e i) = entryKey e := by
  cases i with
  | sllv rd rt rs | srlv rd rt rs | sub rd rs rt | xor rd rs rt | slt rd rs rt =>
    exact key_packR he (by rw [hn]; rfl) rs.isLt rt.isLt rd.isLt
  | mult rs rt | divu rs rt => exact key_packR he (by rw [hn]; rfl) rs.isLt rt.isLt (by decide)
  | jr rs => exact key_packR he (by rw [hn]; rfl) rs.isLt (by decide) (by decide)
  | syscall | hlt => exact key_packR he (by rw [hn]; rfl) (by decide) (by decide) (by decide)
  | blez rs imm | bgez rs imm => exact key_packI_rtSelector he (by rw [hn]; rfl) rs.isLt (immBits_lt imm)
  | opn | rfrk | rsw => exact key_packI_rtSelector he (by rw [hn]; rfl) (by decide) (by decide)
  | bne rs rt imm | slti rt rs imm | lw rt rs imm | sw rt rs imm =>
    exact key_packI_operand he (by rw [hn]; rfl) (by rw [hn]; rfl) rs.isLt rt (immBits_lt imm)
  | andi rt rs imm =>
    exact key_packI_operand he (by rw [hn]; rfl) (by rw [hn]; rfl) rs.isLt rt (Nat.mod_lt imm (by decide))
  | frk rt => exact key_packI_operand he (by rw [hn]; rfl) (by rw [hn]; rfl) (by decide) rt (by decide)
  | j target => exact key_packJ he (by rw [hn]; rfl) (by rw [hn]; rfl) (targetBits_lt target)

end

/-- The operands of every instruction survive packing and unpacking: the family `OperandRoundTrip` in one statement. -/
theorem instrOf_encodeEntry (i : Instr) : Laws.OperandRoundTrip.Statement i := by
  cases i with
  | sllv rd rt rs => exact Laws.OperandRoundTrip.sllv rd rt rs
  | srlv rd rt rs => exact Laws.OperandRoundTrip.srlv rd rt rs
  | jr rs => exact Laws.OperandRoundTrip.jr rs
  | syscall => exact Laws.OperandRoundTrip.syscall
  | hlt => exact Laws.OperandRoundTrip.hlt
  | mult rs rt => exact Laws.OperandRoundTrip.mult rs rt
  | divu rs rt => exact Laws.OperandRoundTrip.divu rs rt
  | sub rd rs rt => exact Laws.OperandRoundTrip.sub rd rs rt
  | xor rd rs rt => exact Laws.OperandRoundTrip.xor rd rs rt
  | slt rd rs rt => exact Laws.OperandRoundTrip.slt rd rs rt
  | blez rs imm => exact Laws.OperandRoundTrip.blez rs imm
  | bgez rs imm => exact Laws.OperandRoundTrip.bgez rs imm
  | j target => exact Laws.OperandRoundTrip.j target
  | bne rs rt imm => exact Laws.OperandRoundTrip.bne rs rt imm
  | slti rt rs imm => exact Laws.OperandRoundTrip.slti rt rs imm
  | andi rt rs imm => exact Laws.OperandRoundTrip.andi rt rs imm
  | frk rt => exact Laws.OperandRoundTrip.frk rt
  | opn => exact Laws.OperandRoundTrip.opn
  | rfrk => exact Laws.OperandRoundTrip.rfrk
  | rsw => exact Laws.OperandRoundTrip.rsw
  | lw rt rs imm => exact Laws.OperandRoundTrip.lw rt rs imm
  | sw rt rs imm => exact Laws.OperandRoundTrip.sw rt rs imm

/-! ## Tables -/

/-- What an admitted table satisfies (R99). -/
theorem tableOk_spec {T : List TableEntry} (h : tableOk T = true) :
    (∀ e ∈ T, entryOk e = true) ∧ (T.map entryKey).Nodup ∧ (T.map TableEntry.name).Nodup ∧ ⟨.hlt, 0, 13⟩ ∈ T := by
  simpa only [tableOk, Bool.and_eq_true, List.all_eq_true, decide_eq_true_eq, and_assoc] using h

theorem entryOfKey_eq_some {T : List TableEntry} {k : Nat} {e : TableEntry} (h : entryOfKey T k = some e) :
    e ∈ T ∧ entryKey e = k :=
  ⟨List.mem_of_find?_eq_some h, by simpa using List.find?_some h⟩

theorem entryOfName_eq_some {T : List TableEntry} {m : Mnemonic} {e : TableEntry} (h : entryOfName T m = some e) :
    e ∈ T ∧ e.name = m :=
  ⟨List.mem_of_find?_eq_some h, by simpa using List.find?_some h⟩

/-- In an admitted table, an entry is the one that its key finds (W1 of R99). -/
theorem entryOfKey_entryKey {T : List TableEntry} (hT : tableOk T = true) {e : TableEntry} (he : e ∈ T) :
    entryOfKey T (entryKey e) = some e := by
  obtain ⟨-, hkeys, -, -⟩ := tableOk_spec hT
  have hsome : (entryOfKey T (entryKey e)).isSome := List.find?_isSome.mpr ⟨e, he, by simp⟩
  obtain ⟨e', hfind⟩ := Option.isSome_iff_exists.mp hsome
  obtain ⟨he', hsame⟩ := entryOfKey_eq_some hfind
  rwa [List.inj_on_of_nodup_map hkeys he' he hsame] at hfind

/-- A word with the key of an entry is that entry's instruction. -/
theorem resolveIn_of_key {T : List TableEntry} (hT : tableOk T = true) {e : TableEntry} (he : e ∈ T) {w : Word}
    (hk : key w = entryKey e) : resolveIn T w = some (instrOf e.name w) := by
  rw [resolveIn, hk, entryOfKey_entryKey hT he, Option.map_some]

/-- What a word resolves to is read from it by an entry of the table. -/
theorem resolveIn_eq_some {T : List TableEntry} {w : Word} {i : Instr} (h : resolveIn T w = some i) :
    ∃ e ∈ T, entryKey e = key w ∧ instrOf e.name w = i := by
  obtain ⟨e, hfind, hi⟩ := Option.map_eq_some_iff.mp h
  obtain ⟨he, hk⟩ := entryOfKey_eq_some hfind
  exact ⟨e, he, hk, hi⟩

/-- A word is unknown under an admitted table exactly when no entry selects it. -/
theorem resolveIn_eq_none {T : List TableEntry} (hT : tableOk T = true) (w : Word) :
    resolveIn T w = none ↔ ∀ e ∈ T, ¬ e.Selects w := by
  obtain ⟨hentries, -, -, -⟩ := tableOk_spec hT
  rw [resolveIn, Option.map_eq_none_iff, entryOfKey, List.find?_eq_none]
  refine forall₂_congr fun e he => ?_
  rw [selects_iff_key (hentries e he), beq_iff_eq, eq_comm]

/-- What encodes to a word does so by an entry of its name. -/
theorem encodeIn_eq_some {T : List TableEntry} {i : Instr} {w : Word} (h : encodeIn T i = some w) :
    ∃ e ∈ T, e.name = i.mnemonic ∧ encodeEntry e i = w := by
  obtain ⟨e, hfind, hw⟩ := Option.map_eq_some_iff.mp h
  obtain ⟨he, hn⟩ := entryOfName_eq_some hfind
  exact ⟨e, he, hn, hw⟩

/-- R118: under an admitted table the word of a well-formed instruction resolves to it. -/
theorem resolveIn_encodeIn {T : List TableEntry} (hT : tableOk T = true) {i : Instr} (hi : i.wellFormed = true)
    {w : Word} (h : encodeIn T i = some w) : resolveIn T w = some i := by
  obtain ⟨e, hmem, hn, rfl⟩ := encodeIn_eq_some h
  obtain ⟨hentries, -, -, -⟩ := tableOk_spec hT
  have he := hentries e hmem
  rw [resolveIn_of_key hT hmem (key_encodeEntry he hn), instrOf_encodeEntry i e he hn hi]

theorem defaultTable_ok : tableOk Config.mnemonicTable = true := by decide

/-- The default table names every instruction. -/
theorem exists_entryOfName_default (m : Mnemonic) : ∃ e, entryOfName Config.mnemonicTable m = some e := by
  cases m <;> exact ⟨_, rfl⟩

theorem exists_encode (i : Instr) : ∃ w, encode i = some w := by
  obtain ⟨e, he⟩ := exists_entryOfName_default i.mnemonic
  exact ⟨encodeEntry e i, by rw [encode, encodeIn, he, Option.map_some]⟩

end Sys2Proof

/-! ## The statements about the decoder and the encoder -/

namespace Sys2Proof.Proofs

open Sys2Proof

/-- Settles O3: the word has the key of its entry, the key finds that entry, and the operands survive packing. -/
theorem encodeResolveRoundTrip : Obligations.EncodeResolveRoundTrip := by
  refine ⟨fun T i w hT hi h => resolveIn_encodeIn hT hi h, fun i hi => ?_⟩
  obtain ⟨w, hw⟩ := exists_encode i
  exact ⟨w, hw, resolveIn_encodeIn defaultTable_ok hi hw⟩

/-- Settles O4: W3 and W5 of R99 put into the word the field that its key reads. -/
theorem assembledWordHasEntryKey : Obligations.AssembledWordHasEntryKey :=
  fun _ _ he hn => key_encodeEntry he hn

/-- Settles O5: both sides say that the fields of the word are those of the entry; the masked word is the sum of its
fields in their places. -/
theorem maskAndMatchSelectWords : Obligations.MaskAndMatchSelectWords := by
  intro e w he
  obtain ⟨hop, hsecond, hone, -⟩ := entryOk_spec he
  have hfn := functField_lt w
  rw [← selects_iff_key he, TableEntry.Selects]
  split
  · next h0 =>
    rw [← BitVec.toNat_inj, toNat_and_functMask, BitVec.toNat_ofNat, Nat.mod_eq_of_lt (by omega)]
    omega
  · split
    · next h1 =>
      have hsel := (hone h1).1
      rw [← BitVec.toNat_inj, toNat_and_rtMask, toNat_rtMatch (Nat.lt_succ_of_le hsel)]
      have hrt : bits w 20 16 < 32 := bits_lt w 20 16
      omega
    · rw [← BitVec.toNat_inj, toNat_and_opcodeMask, BitVec.toNat_shiftLeft, BitVec.toNat_ofNat, Nat.shiftLeft_eq]
      omega

/-- Settles O6: no entry of the default table selects the word, said field by field. -/
theorem unknownWordsAreExactly : Obligations.UnknownWordsAreExactly := by
  intro w
  have hop := opcodeField_lt w
  rw [decode, resolveIn_eq_none defaultTable_ok, toNat_shiftRight_opcode, toNat_and_funct, toNat_shiftRight_and_rt]
  simp only [Config.mnemonicTable, List.forall_mem_cons]
  by_cases h0 : opcodeField w = 0
  · simp [TableEntry.selects_of_opcode_zero h0, h0]
  · by_cases h1 : opcodeField w = 1
    · simp [TableEntry.selects_of_opcode_one h1, h1]
    · simp only [TableEntry.selects_of_opcode_other h0 h1, h0, h1, List.mem_cons, List.not_mem_nil, false_and,
        false_or, or_false, false_imp_iff, implies_true, and_true, not_false_eq_true, true_and]
      omega

/-- Settles O8: the immediate is a field of the word, and a field is in the range of its reading. -/
theorem resolvedInstructionsAreWellFormed : Obligations.ResolvedInstructionsAreWellFormed := by
  intro T w i h
  obtain ⟨e, -, -, rfl⟩ := resolveIn_eq_some h
  exact instrOf_wf e.name w

/-- Settles O2: each word is decoded by evaluation. -/
theorem exampleWordsDecode : Obligations.ExampleWordsDecode := by
  unfold Obligations.ExampleWordsDecode
  decide

end Sys2Proof.Proofs

/-! The statements about immediate arithmetic and compare (41_alu_immediate.md). Both instructions write one register and
advance, so both complete by the same rule; what is left is the value each of them writes. -/

namespace Sys2Proof.Machine

/-! ## Instructions that change the executing process only -/

/-- An instruction defined as an update of the executing process completes with what the update ensures. -/
theorem Completes.of_updateRunning {i : Instr} {s : State} {f : Process → Process} {P : Process → Process → Prop}
    (hexec : exec i s = s.updateRunning f) (hf : ∀ p, P p (f p)) : Completes i s P := fun r hr =>
  ⟨s.setProc r.group r.proc (f r.p), f r.p, hexec.trans (State.updateRunning_eq hr f), OnlyRunning.setProc s r (f r.p),
    State.procAt_setProc_self (f r.p) (State.running_procAt hr), hf r.p⟩

/-- A register write followed by the default advance (47_scheduler_fetch.md R246) does nothing else. -/
theorem WroteRegister.write_advance (p : Process) (rd : Reg) (v : Word) :
    WroteRegister p (p.write rd v).advance rd v := by
  refine ⟨?_, fun k hk => ?_, ?_, ?_, ?_, (sameIdentity_write p rd v).1, ?_⟩
  · rw [Process.advance_read, Process.write_read, if_pos rfl]
  · rw [Process.advance_read, Process.write_read_other p rd k v hk]
  · rw [Process.advance_hi, Process.write_hi]
  · rw [Process.advance_lo, Process.write_lo]
  · rw [Process.advance_alive, Process.write_alive]
  · rw [Process.advance_pc, Process.write_pc, addOffset_one]

/-- What is read back from the written register is 0 or the value, so it is below any positive bound on the value. -/
theorem WroteRegister.read_lt {p q : Process} {rd : Reg} {v : Word} (h : WroteRegister p q rd v) {n : Nat} (hn : 0 < n)
    (hv : v.toNat < n) : (q.read rd).toNat < n := by
  obtain ⟨hread, -⟩ := h
  rw [hread]
  split
  · exact hn
  · exact hv

/-! ## What the two instructions do to the executing process -/

theorem exec_andi (rt rs : Reg) (imm : Nat) (s : State) :
    exec (.andi rt rs imm) s = s.updateRunning (fun p => (p.write rt (p.read rs &&& zextWord imm)).advance) := rfl

theorem exec_slti (rt rs : Reg) (imm : Int) (s : State) :
    exec (.slti rt rs imm) s
      = s.updateRunning (fun p => (p.write rt (boolWord (decide (sval (p.read rs) < imm)))).advance) := rfl

/-! ## The immediates as words -/

/-- An immediate of the 16-bit field (R96) is the zero extension of its bits. -/
theorem zextWord_eq_setWidth {imm : Nat} (h : imm ≤ 65535) : zextWord imm = (BitVec.ofNat 16 imm).setWidth 32 := by
  apply BitVec.eq_of_toNat_eq
  rw [zextWord, BitVec.toNat_setWidth, BitVec.toNat_ofNat, BitVec.toNat_ofNat,
    Nat.mod_eq_of_lt (Nat.lt_succ_of_le h : imm < 2 ^ 16)]

/-- A zero extension from 16 bits clears the upper half of whatever it masks (R140). -/
theorem toNat_and_setWidth_lt (v : Word) (u : BitVec 16) : (v &&& u.setWidth 32).toNat < 65536 :=
  calc (v &&& u.setWidth 32).toNat = v.toNat &&& (u.setWidth 32).toNat := BitVec.toNat_and ..
    _ ≤ (u.setWidth 32).toNat := Nat.and_le_right
    _ = u.toNat := BitVec.toNat_setWidth_of_le (by decide)
    _ < 65536 := u.isLt

/-- Comparing the signed reading of a word with a signed immediate is the signed comparison of words (decision D5): the
immediate is its word's own signed reading. -/
theorem decide_sval_lt_eq_slt (v : Word) {imm : Int} (hlo : -32768 ≤ imm) (hhi : imm ≤ 32767) :
    decide (sval v < imm) = v.slt (BitVec.ofInt 32 imm) := by
  have himm : (BitVec.ofInt 32 imm).toInt = imm :=
    BitVec.toInt_ofInt_eq_self (by decide) (by omega) (by omega)
  rw [BitVec.slt, himm]

end Sys2Proof.Machine

/-! ## The statements about immediate arithmetic and compare -/

namespace Sys2Proof.Proofs

open Sys2Proof Sys2Proof.Machine

/-- Settles O15: the masked value is below 65536, and so is the 0 that register 0 reads as. -/
theorem andiResult : Obligations.AndiResult := by
  intro rt rs imm s himm
  refine Completes.of_updateRunning (exec_andi rt rs imm s) fun p => ?_
  rw [zextWord_eq_setWidth himm]
  have hwrite := WroteRegister.write_advance p rt (p.read rs &&& (BitVec.ofNat 16 imm).setWidth 32)
  exact ⟨hwrite, hwrite.read_lt (by decide) (toNat_and_setWidth_lt _ _)⟩

/-- Settles O16: in the immediate's range the comparison of integers is the comparison of words. -/
theorem sltiResult : Obligations.SltiResult := by
  intro rt rs imm s hlo hhi
  refine Completes.of_updateRunning (exec_slti rt rs imm s) fun p => ?_
  rw [decide_sval_lt_eq_slt (p.read rs) hlo hhi]
  exact WroteRegister.write_advance p rt _

end Sys2Proof.Proofs

/-! The statements about control transfer (42_branch_jump.md). Each of the five instructions is an assignment to `pc` and
nothing else; they differ in the word assigned, so one rule gives the frame of them all and what is left is that word. -/

namespace Sys2Proof.Machine

/-! ## Assigning the program counter -/

/-- An assignment to `pc` leaves registers, `HI`, `LO` and identity alone. -/
theorem SameData.setPc (p : Process) (v : Word) : SameData p (p.setPc v) :=
  ⟨p.setPc_read v, p.setPc_hi v, p.setPc_lo v, p.setPc_id v, p.setPc_player v, p.setPc_prog v⟩

/-- An instruction defined as an assignment to `pc` completes with that `pc` and no other change. -/
theorem Completes.of_setPc {i : Instr} {s : State} {target : Process → Word}
    (hexec : exec i s = s.updateRunning (fun p => p.setPc (target p))) :
    Completes i s (fun p q => SameData p q ∧ q.alive = p.alive ∧ q.pc = target p) :=
  Completes.of_updateRunning hexec fun p =>
    ⟨SameData.setPc p (target p), p.setPc_alive (target p), p.setPc_pc (target p)⟩

/-- A relative jump assigns the 32-bit sum of its own address and its offset (decisions D4 and D8). -/
theorem Process.jumpBy_eq_setPc (p : Process) (z : Int) : p.jumpBy z = p.setPc (p.pc + BitVec.ofInt 32 z) := by
  rw [Process.jumpBy, addOffset_eq]

/-- A conditional branch assigns `pc` on both paths (R150): its target if the condition holds, else the next address. -/
theorem Process.branch_eq_setPc (p : Process) (c : Prop) [Decidable c] (z : Int) :
    p.branch (decide c) z = p.setPc (if c then p.pc + BitVec.ofInt 32 z else p.pc + 1#32) := by
  by_cases hc : c
  · rw [if_pos hc, decide_eq_true hc, Process.branch, if_pos rfl, Process.jumpBy_eq_setPc]
  · rw [if_neg hc, decide_eq_false hc, Process.branch, if_neg Bool.false_ne_true, Process.jumpBy, addOffset_one]

/-! ## What the five instructions assign to `pc` -/

theorem exec_bgez (rs : Reg) (imm : Int) (s : State) :
    exec (.bgez rs imm) s = s.updateRunning (fun p =>
      p.setPc (if 0 ≤ (p.read rs).toInt then p.pc + BitVec.ofInt 32 imm else p.pc + 1#32)) :=
  congrArg s.updateRunning (funext fun p => p.branch_eq_setPc (0 ≤ (p.read rs).toInt) imm)

theorem exec_blez (rs : Reg) (imm : Int) (s : State) :
    exec (.blez rs imm) s = s.updateRunning (fun p =>
      p.setPc (if (p.read rs).toInt ≤ 0 then p.pc + BitVec.ofInt 32 imm else p.pc + 1#32)) :=
  congrArg s.updateRunning (funext fun p => p.branch_eq_setPc ((p.read rs).toInt ≤ 0) imm)

/-- Said by the equality of the registers, which is the path not taken (R153). -/
theorem exec_bne (rs rt : Reg) (imm : Int) (s : State) :
    exec (.bne rs rt imm) s = s.updateRunning (fun p =>
      p.setPc (if p.read rs = p.read rt then p.pc + 1#32 else p.pc + BitVec.ofInt 32 imm)) :=
  congrArg s.updateRunning (funext fun p =>
    (p.branch_eq_setPc (p.read rs ≠ p.read rt) imm).trans (congrArg p.setPc (ite_not ..)))

theorem exec_j (target : Int) (s : State) :
    exec (.j target) s = s.updateRunning (fun p => p.setPc (p.pc + BitVec.ofInt 32 target)) :=
  congrArg s.updateRunning (funext fun p => p.jumpBy_eq_setPc target)

theorem exec_jr (rs : Reg) (s : State) :
    exec (.jr rs) s = s.updateRunning (fun p => p.setPc (p.read rs)) := rfl

end Sys2Proof.Machine

/-! ## The statements about control transfer -/

namespace Sys2Proof.Proofs

open Sys2Proof Sys2Proof.Machine

/-- Settles O17: both paths of a branch are assignments to `pc`. -/
theorem branchResults : Obligations.BranchResults := fun rs rt imm s =>
  ⟨Completes.of_setPc (exec_bgez rs imm s), Completes.of_setPc (exec_blez rs imm s),
    Completes.of_setPc (exec_bne rs rt imm s)⟩

/-- Settles O18: the word assigned is the 32-bit sum of the jump's own address and its target. -/
theorem jumpIsRelative : Obligations.JumpIsRelative := fun target s => Completes.of_setPc (exec_j target s)

/-- Settles O19: the word assigned is the register as it stands. -/
theorem jumpRegisterIsAbsolute : Obligations.JumpRegisterIsAbsolute := fun rs s => Completes.of_setPc (exec_jr rs s)

end Sys2Proof.Proofs

/-! The statements about load and store (43_load_store.md). Outside the core both instructions are the one fault action;
inside, a load is a register write and a store is a memory write, each followed by the advance. -/

namespace Sys2Proof.Machine

/-! ## The address -/

/-- The address is the signed reading of the 32-bit sum (decision D4). -/
theorem effectiveAddress_eq (p : Process) (rs : Reg) (imm : Int) :
    effectiveAddress p rs imm = (p.read rs + BitVec.ofInt 32 imm).toInt := by
  rw [effectiveAddress, sval, addOffset_eq]

/-! ## The fault action -/

/-- A kill followed by the default advance is all that a kill does (60_exceptions.md R283). -/
theorem Killed.kill_advance (p : Process) : Killed p p.kill.advance :=
  ⟨SameData.setPc p.kill _, rfl, addOffset_one p.pc⟩

/-- The fault action changes the record of the process on turn only, and kills it. -/
theorem State.killRunning_kills {s : State} {r : Running} (hr : s.running = some r) :
    OnlyRunning s (s.killRunning r) r ∧ (s.killRunning r).procAt r.group r.proc = some r.p.kill.advance ∧
    Killed r.p r.p.kill.advance :=
  ⟨OnlyRunning.setProc s r _, State.procAt_setProc_self _ (State.running_procAt hr), Killed.kill_advance r.p⟩

/-! ## What the two instructions do on either side of the core's bounds -/

section
variable {rt rs : Reg} {imm : Int} {s : State} {r : Running}

theorem execLw_inRange (hr : s.running = some r) (ha : s.inRange (effectiveAddress r.p rs imm) = true) :
    execLw rt rs imm s = .next
      (s.setProc r.group r.proc (r.p.write rt (s.memRead (effectiveAddress r.p rs imm))).advance) := by
  rw [execLw, State.withRunning_eq hr]
  exact if_pos ha

theorem execLw_outOfRange (hr : s.running = some r) (ha : ¬ s.inRange (effectiveAddress r.p rs imm) = true) :
    execLw rt rs imm s = .next (s.killRunning r) := by
  rw [execLw, State.withRunning_eq hr]
  exact if_neg ha

theorem execSw_outOfRange (hr : s.running = some r) (ha : ¬ s.inRange (effectiveAddress r.p rs imm) = true) :
    execSw rt rs imm s = .next (s.killRunning r) := by
  rw [execSw, State.withRunning_eq hr]
  exact if_neg ha

end

/-! ## A memory write together with the record of the process on turn -/

/-- A memory write is a change of the core alone, so the frame of replacing the process on turn is kept. -/
theorem SameBut.memWrite_setProc (s : State) (r : Running) (a : Int) (v : Word) (o : OwnerTag) (q : Process) :
    SameBut s ((s.memWrite a v o).setProc r.group r.proc q) r := by
  obtain ⟨hsame, -⟩ := OnlyRunning.setProc (s.memWrite a v o) r q
  exact hsame

theorem State.procAt_memWrite (s : State) (a : Int) (v : Word) (o : OwnerTag) (k n : Nat) :
    (s.memWrite a v o).procAt k n = s.procAt k n := rfl

end Sys2Proof.Machine

/-! ## The statements about load and store -/

namespace Sys2Proof.Proofs

open Sys2Proof Sys2Proof.Machine

/-- Settles O20: inside the core a register write and the advance, outside the fault action. -/
theorem loadResult : Obligations.LoadResult := by
  intro rt rs imm s r hr
  refine ⟨effectiveAddress_eq r.p rs imm, ?_⟩
  simp only [← State.inRange_iff]
  by_cases ha : s.inRange (effectiveAddress r.p rs imm) = true
  · simp only [if_pos ha]
    exact ⟨_, _, execLw_inRange hr ha, OnlyRunning.setProc s r _,
      State.procAt_setProc_self _ (State.running_procAt hr), WroteRegister.write_advance r.p rt _⟩
  · simp only [if_neg ha]
    exact ⟨_, _, execLw_outOfRange hr ha, State.killRunning_kills hr⟩

/-- Settles O21: inside the core a write of the one cell and the advance, outside the fault action. -/
theorem storeResult : Obligations.StoreResult := by
  intro rt rs imm s r hr
  refine ⟨effectiveAddress_eq r.p rs imm, ?_⟩
  simp only [← State.inRange_iff]
  by_cases ha : s.inRange (effectiveAddress r.p rs imm) = true
  · simp only [if_pos ha]
    have hproc := (State.procAt_memWrite s (effectiveAddress r.p rs imm) (r.p.read rt) ⟨r.p.player, r.p.id⟩ _ _).trans
      (State.running_procAt hr)
    exact ⟨_, _, execSw_inRange hr ha, State.procAt_setProc_self _ hproc, SameBut.memWrite_setProc s r _ _ _ _, rfl,
      SameData.setPc r.p _, r.p.advance_alive, addOffset_one r.p.pc, State.memWrite_read_self _ _ _ _,
      fun a hne => State.memWrite_read_other _ _ _ _ a hne⟩
  · obtain ⟨honly, hproc, hkilled⟩ := State.killRunning_kills hr
    simp only [if_neg ha]
    exact ⟨_, _, execSw_outOfRange hr ha, hproc, honly, hkilled⟩

end Sys2Proof.Proofs

/-! The statements about register arithmetic, logic, compare and shifts (44_alu_register.md). All five instructions write
one register and advance; the rules compute the value on integers and narrow it with `w32`, so what is left is that the
narrowed integer is the operation on words. -/

namespace Sys2Proof.Machine

/-! ## Instructions that write one register -/

/-- An instruction that writes a value computed from the executing process and advances has that register write as its
whole effect. -/
theorem Completes.of_write {i : Instr} {s : State} {rd : Reg} {v : Process → Word}
    (hexec : exec i s = s.updateRunning (fun p => (p.write rd (v p)).advance)) :
    Completes i s (fun p q => WroteRegister p q rd (v p)) :=
  Completes.of_updateRunning hexec fun p => WroteRegister.write_advance p rd (v p)

/-! ## The values as words -/

theorem w32_natCast (n : Nat) : w32 (n : Int) = BitVec.ofNat 32 n := BitVec.ofInt_natCast ..

/-- `w32(u(v) - u(w))` as subtraction of words: the wrap modulo 2^32 is the whole of it (R175, decision D3). -/
theorem w32_sub (v w : Word) : w32 ((uval v : Int) - (uval w : Int)) = v - w := by
  apply BitVec.eq_of_toInt_eq
  rw [w32, BitVec.toInt_ofInt, BitVec.toInt_sub, BitVec.toInt_eq_toNat_bmod v, BitVec.toInt_eq_toNat_bmod w,
    ← Int.sub_bmod]

/-- Comparing signed readings is the signed comparison of words (decision D5). -/
theorem boolWord_sval_lt (v w : Word) :
    boolWord (decide (sval v < sval w)) = if v.slt w then 1#32 else 0#32 := rfl

/-- The low five bits of a word are its value modulo 32 (decision D6). -/
theorem toNat_and_31 (v : Word) : (v &&& 31#32).toNat = shiftAmount v :=
  (BitVec.toNat_and ..).trans (Nat.and_two_pow_sub_one_eq_mod v.toNat 5)

/-- Multiplying by a power of two and narrowing is the left shift: zeros enter, the overflow is lost (R181). -/
theorem w32_mul_two_pow (v : Word) (n : Nat) : w32 ((uval v * 2 ^ n : Nat) : Int) = v <<< n := by
  apply BitVec.eq_of_toNat_eq
  rw [w32_natCast, BitVec.toNat_ofNat, BitVec.toNat_shiftLeft, Nat.shiftLeft_eq]

/-- The floor of the division by a power of two is the logical right shift (R182). -/
theorem w32_div_two_pow (v : Word) (n : Nat) : w32 ((uval v / 2 ^ n : Nat) : Int) = v >>> n := by
  rw [w32_natCast, ← Nat.shiftRight_eq_div_pow, ← BitVec.toNat_ushiftRight, BitVec.ofNat_toNat, BitVec.setWidth_eq]

/-! ## What the five instructions do to the executing process -/

theorem exec_sub (rd rs rt : Reg) (s : State) :
    exec (.sub rd rs rt) s = s.updateRunning (fun p => (p.write rd (p.read rs - p.read rt)).advance) := by
  simp only [← w32_sub]
  rfl

theorem exec_xor (rd rs rt : Reg) (s : State) :
    exec (.xor rd rs rt) s = s.updateRunning (fun p => (p.write rd (p.read rs ^^^ p.read rt)).advance) := rfl

theorem exec_slt (rd rs rt : Reg) (s : State) :
    exec (.slt rd rs rt) s = s.updateRunning (fun p =>
      (p.write rd (if (p.read rs).slt (p.read rt) then 1#32 else 0#32)).advance) := by
  simp only [← boolWord_sval_lt]
  rfl

theorem exec_sllv (rd rt rs : Reg) (s : State) :
    exec (.sllv rd rt rs) s = s.updateRunning (fun p =>
      (p.write rd (p.read rt <<< (p.read rs &&& 31#32).toNat)).advance) := by
  simp only [toNat_and_31, ← w32_mul_two_pow]
  rfl

theorem exec_srlv (rd rt rs : Reg) (s : State) :
    exec (.srlv rd rt rs) s = s.updateRunning (fun p =>
      (p.write rd (p.read rt >>> (p.read rs &&& 31#32).toNat)).advance) := by
  simp only [toNat_and_31, ← w32_div_two_pow]
  rfl

end Sys2Proof.Machine

/-! ## The statements about register arithmetic, logic, compare and shifts -/

namespace Sys2Proof.Proofs

open Sys2Proof Sys2Proof.Machine

/-- Settles O23: the value written is the difference of words. -/
theorem subResult : Obligations.SubResult := fun rd rs rt s => Completes.of_write (exec_sub rd rs rt s)

/-- Settles O26: the value written is the shift of words by the low five bits. -/
theorem shiftResults : Obligations.ShiftResults := fun rd rt rs s =>
  ⟨Completes.of_write (exec_sllv rd rt rs s), Completes.of_write (exec_srlv rd rt rs s)⟩

/-- Settles O24: the value written is the exclusive or as the rule gives it. -/
theorem xorResult : Obligations.XorResult := fun rd rs rt s => Completes.of_write (exec_xor rd rs rt s)

/-- Settles O25: the value written is the signed comparison of words. -/
theorem sltResult : Obligations.SltResult := fun rd rs rt s => Completes.of_write (exec_slt rd rs rt s)

end Sys2Proof.Proofs

/-! The statements about multiply and divide (45_muldiv.md). Both instructions write `HI` and `LO` and advance, so they
share one frame; what is left is what the two words say together: the halves of a 64-bit product, or the magnitudes of a
remainder and a quotient, which fit a word also at 2^31. -/

namespace Sys2Proof.Machine

/-! ## Instructions that write `HI` and `LO` -/

/-- Assigning `HI` and `LO`, followed by the default advance (47_scheduler_fetch.md R246), leaves registers, liveness
and identity alone. -/
theorem Process.setHiLo_advance_frame (p : Process) (h l : Word) :
    (∀ k, (p.setHiLo h l).advance.read k = p.read k) ∧ (p.setHiLo h l).advance.alive = p.alive ∧
    SameIdentity p (p.setHiLo h l).advance ∧ (p.setHiLo h l).advance.pc = p.pc + 1#32 := by
  obtain ⟨hread, -, -, hid⟩ := SameData.setPc (p.setHiLo h l) (addOffset p.pc 1)
  exact ⟨hread, (p.setHiLo h l).advance_alive, hid, addOffset_one p.pc⟩

/-! ## What the two instructions do to the executing process -/

theorem exec_mult (rs rt : Reg) (s : State) :
    exec (.mult rs rt) s = s.updateRunning (fun p =>
      (p.setHiLo (w32 ((product64 (p.read rs) (p.read rt) / 2 ^ 32 : Nat) : Int))
        (w32 ((product64 (p.read rs) (p.read rt) % 2 ^ 32 : Nat) : Int))).advance) := rfl

theorem exec_divu (rs rt : Reg) (s : State) :
    exec (.divu rs rt) s = s.updateRunning (fun p =>
      (p.setHiLo (divMagnitudes (p.read rs) (p.read rt)).1 (divMagnitudes (p.read rs) (p.read rt)).2).advance) := rfl

/-! ## The product -/

/-- A number cut at bit 32 and put together again is its 64-bit pattern. -/
theorem w32_halves_append (n : Nat) :
    w32 ((n / 2 ^ 32 : Nat) : Int) ++ w32 ((n % 2 ^ 32 : Nat) : Int) = BitVec.ofNat 64 n := by
  apply BitVec.eq_of_toNat_eq
  have hlow : n % 2 ^ 32 % 2 ^ 32 < 2 ^ 32 := Nat.mod_lt _ (by decide)
  rw [w32_natCast, w32_natCast, BitVec.toNat_append, BitVec.toNat_ofNat, BitVec.toNat_ofNat, BitVec.toNat_ofNat,
    ← Nat.shiftLeft_add_eq_or_of_lt hlow, Nat.shiftLeft_eq]
  omega

/-- The residue of the integer product is the product of the sign extensions (R190). -/
theorem ofNat_product64 (a b : Word) : BitVec.ofNat 64 (product64 a b) = a.signExtend 64 * b.signExtend 64 :=
  calc BitVec.ofNat 64 (product64 a b) = BitVec.ofNat 64 (BitVec.ofInt 64 (sval a * sval b)).toNat :=
        congrArg (BitVec.ofNat 64) (BitVec.toNat_ofInt _).symm
    _ = BitVec.ofInt 64 (sval a * sval b) := by rw [BitVec.ofNat_toNat, BitVec.setWidth_eq]
    _ = a.signExtend 64 * b.signExtend 64 := BitVec.ofInt_mul (sval a) (sval b)

/-! ## The magnitudes -/

/-- The magnitude of a signed word is at most 2^31, one more than the greatest signed word. -/
theorem natAbs_sval_le (v : Word) : (sval v).natAbs ≤ 2 ^ 31 := by
  have hlo : -2 ^ 32 ≤ 2 * sval v := BitVec.le_two_mul_toInt
  have hhi : 2 * sval v < 2 ^ 32 := BitVec.two_mul_toInt_lt
  omega

/-- A number no greater than the magnitude of a signed word keeps its value in a word (decision D20). -/
theorem toNat_w32_of_le_natAbs {n : Nat} {v : Word} (h : n ≤ (sval v).natAbs) : (w32 (n : Int)).toNat = n := by
  have hv := natAbs_sval_le v
  rw [w32_natCast, BitVec.toNat_ofNat, Nat.mod_eq_of_lt (by omega)]

theorem divMagnitudes_zero (a : Word) : divMagnitudes a 0#32 = (0#32, 0#32) := if_pos rfl

/-- `HI` of a division is the magnitude of the truncating remainder: the magnitudes are divided, the signs drop out
(R191). -/
theorem divMagnitudes_hi {a b : Word} (hb : b ≠ 0#32) :
    (divMagnitudes a b).1.toNat = ((sval a).tmod (sval b)).natAbs := by
  rw [divMagnitudes, if_neg hb, Int.natAbs_tmod, toNat_w32_of_le_natAbs (Nat.mod_le _ _)]

/-- `LO` of a division is the magnitude of the truncating quotient, also for a quotient of 2^31 (R191, decision D20). -/
theorem divMagnitudes_lo {a b : Word} (hb : b ≠ 0#32) :
    (divMagnitudes a b).2.toNat = ((sval a).tdiv (sval b)).natAbs := by
  rw [divMagnitudes, if_neg hb, Int.natAbs_tdiv, toNat_w32_of_le_natAbs (Nat.div_le_self _ _)]
  rfl

end Sys2Proof.Machine

/-! ## The statements about multiply and divide -/

namespace Sys2Proof.Proofs

open Sys2Proof Sys2Proof.Machine

/-- Settles O27: `HI` and `LO` are the two halves of one number, and that number is the residue of the product. -/
theorem multResult : Obligations.MultResult := fun rs rt s =>
  Completes.of_updateRunning (exec_mult rs rt s) fun p =>
    ⟨(w32_halves_append _).trans (ofNat_product64 (p.read rs) (p.read rt)), Process.setHiLo_advance_frame p _ _⟩

/-- Settles O28: dividing the magnitudes gives the magnitudes of the truncating results, and each fits a word. -/
theorem divuResult : Obligations.DivuResult := by
  intro rs rt s
  refine Completes.of_updateRunning (exec_divu rs rt s) fun p => ⟨?_, Process.setHiLo_advance_frame p _ _⟩
  rw [Process.advance_hi, Process.advance_lo, Process.setHiLo_hi, Process.setHiLo_lo]
  by_cases hzero : p.read rt = 0#32
  · rw [if_pos hzero, hzero, divMagnitudes_zero]
    exact ⟨rfl, rfl⟩
  · rw [if_neg hzero]
    exact ⟨divMagnitudes_lo hzero, divMagnitudes_hi hzero⟩

end Sys2Proof.Proofs

/-! The statements about process and system instructions (46_process_system.md): `hlt` and the reserved instructions
change the executing process only, a fork inside the core is one `Effect` whatever becomes of the parent, and a service
of `syscall` kills, answers in register 1, or is refused. -/

namespace Sys2Proof.Machine

/-! ## The halt and the reserved instructions -/

/-- The fault action is an update of the executing process. -/
theorem exec_hlt (s : State) : exec .hlt s = s.updateRunning (fun p => p.kill.advance) := rfl

theorem exec_opn (s : State) : exec .opn s = s.updateRunning Process.advance := rfl
theorem exec_rfrk (s : State) : exec .rfrk s = s.updateRunning Process.advance := rfl
theorem exec_rsw (s : State) : exec .rsw s = s.updateRunning Process.advance := rfl

/-- The default advance (47_scheduler_fetch.md R246) as a record. -/
theorem Process.advance_eq (p : Process) : p.advance = { p with pc := p.pc + 1#32 } :=
  congrArg p.setPc (addOffset_one p.pc)

/-! ## Where processes are after a child has been appended -/

section

variable {s t : State} {r : Running} {cs : List Process} {q : Process}

theorem State.procAt_runningGroup (hr : s.running = some r) (n : Nat) : s.procAt r.group n = r.g.procs[n]? := by
  obtain ⟨-, hg, -⟩ := State.running_spec hr
  rw [State.procAt, hg, Option.bind_some]

/-- The group on turn after an instruction, away from the process that ran: the old processes, then the children. -/
theorem Effect.procAt_runningGroup (e : Effect s r cs q t) (hr : s.running = some r) {n : Nat} (hn : n ≠ r.proc) :
    t.procAt r.group n = (r.g.procs ++ cs)[n]? := by
  rw [State.procAt, e.group_eq hr, Option.bind_some, Group.ran_procs, List.getElem?_set_ne hn.symm]

theorem Effect.otherGroup_eq (e : Effect s r cs q t) (hr : s.running = some r) {k : Nat} (hk : k ≠ r.group) :
    t.groups[k]? = s.groups[k]? := by
  rw [e.groups_eq_set hr, List.getElem?_set_ne hk.symm]

theorem Effect.procAt_otherGroup (e : Effect s r cs q t) (hr : s.running = some r) {k : Nat} (hk : k ≠ r.group)
    (n : Nat) : t.procAt k n = s.procAt k n := by
  rw [State.procAt, e.otherGroup_eq hr hk, State.procAt]

/-- Every group is still there, with its player and its indices. -/
theorem Effect.group_frame (e : Effect s r cs q t) (hr : s.running = some r) {k : Nat} {g : Group}
    (hg : s.groups[k]? = some g) :
    ∃ g', t.groups[k]? = some g' ∧ g'.player = g.player ∧ g'.pcur = g.pcur ∧ g'.last = g.last := by
  by_cases hk : k = r.group
  · obtain ⟨-, hrun, -⟩ := State.running_spec hr
    obtain rfl : g = r.g := Option.some.inj (hg.symm.trans (hk ▸ hrun))
    exact ⟨r.g.ran r.proc cs q, hk ▸ e.group_eq hr, rfl, rfl, rfl⟩
  · exact ⟨g, (e.otherGroup_eq hr hk).trans hg, rfl, rfl, rfl⟩

/-- An instruction that appends a child and takes no draw has registered it: the child stands at the end of the list, so
only its index and the parent's hold another process than before. -/
theorem Effect.childRegistered {a : Word} (e : Effect s r [forkChild r a] q t) (hr : s.running = some r)
    (hd : t.draws = s.draws) : ChildRegistered s t r a := by
  have hlt := State.running_lt hr
  refine ⟨⟨forkChild r a, ?_, fun k => Process.fresh_read _ _ _ _ k, rfl, rfl, rfl, rfl, rfl, rfl, rfl⟩, ?_,
    fun k n hparent hchild => ?_, ?_, fun k g hg => e.group_frame hr hg, e.coreSize, e.gcur, hd⟩
  · rw [e.procAt_runningGroup hr (by omega), List.getElem?_concat_length]
  · rw [e.procAt_runningGroup hr (by omega)]
    exact List.getElem?_eq_none (by simp)
  · by_cases hk : k = r.group
    · subst hk
      have hn : n ≠ r.proc := fun h => hparent (by rw [h])
      have hn' : n ≠ r.g.procs.length := fun h => hchild (by rw [h])
      rw [e.procAt_runningGroup hr hn, State.procAt_runningGroup hr]
      rcases Nat.lt_or_gt_of_ne hn' with hold | hbeyond
      · exact List.getElem?_append_left hold
      · rw [List.getElem?_eq_none (by simpa using hbeyond), List.getElem?_eq_none (by omega)]
    · exact e.procAt_otherGroup hr hk n
  · rw [e.groups, List.length_modify]

end

/-! ## The fork -/

/-- The state after a fork at `a` whose copy is as long as the core admits: the child is appended, the program copied
with its tag, and the parent's record is `q`. `execFrk_inRange` ties it to the instruction. -/
def State.forked (s : State) (r : Running) (a : Word) (q : Process) : State :=
  ((s.addProc r.group (forkChild r a)).place (sval a) r.p.prog ⟨r.p.player, (forkChild r a).id⟩).1.setProc
    r.group r.proc q

section

variable {rt : Reg} {s : State} {r : Running}

theorem execFrk_outOfRange (hr : s.running = some r) (ha : ¬ s.inRange (sval (r.p.read rt)) = true) :
    execFrk rt s = .next (s.killRunning r) := by
  rw [execFrk, State.withRunning_eq hr]
  exact if_neg ha

/-- A fork inside the core: the parent lives exactly when the whole program fits (R203, R204). -/
theorem execFrk_inRange (hr : s.running = some r) (ha : s.inRange (sval (r.p.read rt)) = true) :
    execFrk rt s = .next (s.forked r (r.p.read rt)
      (if sval (r.p.read rt) + r.p.prog.length ≤ s.coreSize then r.p.advance else r.p.kill.advance)) := by
  obtain ⟨hlo, hhi⟩ := (State.inRange_iff s _).mp ha
  have hfits := (s.addProc r.group (forkChild r (r.p.read rt))).place_fits (sval (r.p.read rt)) r.p.prog
    ⟨r.p.player, (forkChild r (r.p.read rt)).id⟩ hlo (Int.le_of_lt hhi)
  rw [State.addProc_coreSize] at hfits
  rw [execFrk, State.withRunning_eq hr]
  dsimp only
  rw [if_pos ha, hfits]
  by_cases hroom : sval (r.p.read rt) + r.p.prog.length ≤ s.coreSize
  · rw [if_pos (decide_eq_true hroom), if_pos hroom]; rfl
  · rw [if_neg (by simpa using hroom), if_neg hroom]; rfl

/-- The cells of a fork are those of the placement of the program. -/
theorem State.forked_programCopied {a : Word} (q : Process) (ha : s.inRange (sval a) = true) :
    ProgramCopied s (s.forked r a q) r (sval a).toNat := by
  obtain ⟨hlo, -⟩ := (State.inRange_iff s _).mp ha
  exact ⟨fun i w hw hi => State.place_read_in (s.addProc r.group (forkChild r a)) _ _ _ hlo hw hi,
    fun b hb => State.place_read_out (s.addProc r.group (forkChild r a)) _ _ _ hlo b hb⟩

/-- What a fork inside the core does, whatever becomes of the parent. -/
theorem State.forked_spec {a : Word} {q : Process} (hr : s.running = some r) (ha : s.inRange (sval a) = true)
    (hid : SameIdentity r.p q) (hzero : q.x[0] = r.p.x[0]) :
    ChildRegistered s (s.forked r a q) r a ∧ ProgramCopied s (s.forked r a q) r (sval a).toNat ∧
    (s.forked r a q).procAt r.group r.proc = some q := by
  have e : Effect s r [forkChild r a] q (s.forked r a q) := Effect.fork a ha hid hzero
  have hdraws : (s.forked r a q).draws = s.draws := by
    rw [State.forked, State.setProc_draws, State.place_draws, State.addProc_draws]
  exact ⟨e.childRegistered hr hdraws, State.forked_programCopied q ha, e.procAt_self hr⟩

end

/-! ## The services of `syscall` -/

section

variable {s : State} {r : Running} {v : Service}

/-- A call id outside 0 to 12 names no service (R222). -/
theorem serviceOf_eq_none {id : Int} (h : id < 0 ∨ 12 < id) : serviceOf id = none := by
  unfold serviceOf
  split
  · exact List.getElem?_eq_none (by simp only [services, List.length_cons, List.length_nil]; omega)
  · rfl

theorem exec_syscall_service (hr : s.running = some r) (hv : serviceOf (sval (r.p.read 1)) = some v) :
    exec .syscall s = runService v s r := by
  simp only [exec, execSyscall, State.withRunning_eq hr, hv]

theorem exec_syscall_unknown (hr : s.running = some r) (hv : serviceOf (sval (r.p.read 1)) = none) :
    exec .syscall s = .next (s.killRunning r) := by
  simp only [exec, execSyscall, State.withRunning_eq hr, hv]

/-- Service 0 and the unknown ids are the fault action (R209, R222). -/
theorem exec_syscall_kill (hr : s.running = some r)
    (hid : sval (r.p.read 1) = 0 ∨ sval (r.p.read 1) < 0 ∨ 12 < sval (r.p.read 1)) :
    exec .syscall s = .next (s.killRunning r) := by
  rcases hid with hhalt | hunknown
  · exact exec_syscall_service hr (v := .halt) (by rw [hhalt]; rfl)
  · exact exec_syscall_unknown hr (serviceOf_eq_none hunknown)

/-- An answer is a write of register 1, the advance, and no other change. -/
theorem State.answer_spec (hr : s.running = some r) (z : Int) :
    OnlyRunning s (s.answer r z) r ∧
    (s.answer r z).procAt r.group r.proc = some (r.p.write 1 (w32 z)).advance ∧
    WroteRegister r.p (r.p.write 1 (w32 z)).advance 1 (w32 z) :=
  ⟨OnlyRunning.setProc s r _, State.procAt_setProc_self _ (State.running_procAt hr),
    WroteRegister.write_advance r.p 1 _⟩

/-- A service that answers a natural number completes with its word in register 1. -/
theorem Answers.of_service {id : Int} {n : Nat} (hr : s.running = some r) (hid : serviceOf id = some v)
    (hv : runService v s r = .next (s.answer r n)) : Answers s r id (BitVec.ofNat 32 n) := fun h =>
  ⟨_, _, (exec_syscall_service hr (h ▸ hid)).trans hv, w32_natCast n ▸ State.answer_spec hr n⟩

/-! ## The counts -/

theorem Group.runnable_eq_any (g : Group) : g.runnable = g.procs.any Process.alive := by
  rw [Bool.eq_iff_iff, Group.runnable, decide_eq_true_iff, Group.runnableCount, Nat.one_le_iff_ne_zero,
    ← Nat.pos_iff_ne_zero, List.countP_pos_iff, List.any_eq_true]

theorem State.runnableGroups_eq (s : State) :
    s.runnableGroups = (s.groups.filter (fun g => g.procs.any Process.alive)).length := by
  rw [State.runnableGroups, List.countP_eq_length_filter, funext Group.runnable_eq_any]

theorem Group.runnableCount_eq (g : Group) : g.runnableCount = (g.procs.filter Process.alive).length :=
  List.countP_eq_length_filter

/-! ## The draw -/

theorem State.draw_lt (h : 0 < s.coreSize) : s.draw < s.coreSize := Nat.mod_lt _ h

/-- A draw fits a word, since every core size does (R310). -/
theorem State.toNat_w32_draw (hpos : 0 < s.coreSize) (hmax : s.coreSize ≤ 65535) :
    (w32 (s.draw : Int)).toNat = s.draw := by
  have hlt := State.draw_lt hpos
  rw [w32_natCast, BitVec.toNat_ofNat, Nat.mod_eq_of_lt (by omega)]

/-- Counting a draw moves no process, so what is on turn stays so. -/
theorem State.running_drawn (s : State) : s.drawn.running = s.running := rfl

/-- The draw counter is no part of this frame. -/
theorem SameBut.drawn {t : State} (h : SameBut s.drawn t r) : SameBut s t r := h

/-! ## The services of a named group -/

theorem runService_score {g : Group} (hg : s.groupOf (sval (r.p.read 2)) = some g) :
    runService .score s r = .next (s.answer r (uval (score s.coreSize s.core s.groups s.gcur g))) := by
  simp only [runService, hg]

theorem runService_runnableProcesses {g : Group} (hg : s.groupOf (sval (r.p.read 2)) = some g) :
    runService .runnableProcesses s r = .next (s.answer r g.runnableCount) := by
  simp only [runService, hg]

theorem runService_score_noGroup (hg : s.groupOf (sval (r.p.read 2)) = none) :
    runService .score s r = .refused (.noSuchGroup 8 (sval (r.p.read 2))) := by
  simp only [runService, hg]

theorem runService_runnableProcesses_noGroup (hg : s.groupOf (sval (r.p.read 2)) = none) :
    runService .runnableProcesses s r = .refused (.noSuchGroup 11 (sval (r.p.read 2))) := by
  simp only [runService, hg]

theorem State.groupOf_eq_none {k : Int} (h : ∀ g ∈ s.groups, (g.player : Int) ≠ k) : s.groupOf k = none :=
  List.find?_eq_none.mpr fun g hg => by simpa using h g hg

end

end Sys2Proof.Machine

/-! ## The statements about process and system instructions -/

namespace Sys2Proof.Proofs

open Sys2Proof Sys2Proof.Machine

/-- Settles O31: there is room for the whole program, so the parent's record is the advanced one. -/
theorem forkRegistersChildAndCopies : Obligations.ForkRegistersChildAndCopies := by
  intro rt s r hr ha hroom
  have hexec := execFrk_inRange hr ha
  rw [if_pos hroom] at hexec
  obtain ⟨hchild, hcopied, hproc⟩ := State.forked_spec (q := r.p.advance) hr ha ⟨rfl, rfl, rfl⟩ rfl
  exact ⟨_, _, hexec, hchild, hcopied, hproc, SameData.setPc r.p _, r.p.advance_alive, addOffset_one r.p.pc⟩

/-- Settles O32: there is no room for the whole program, so the parent's record is the killed one; child and cells are
those of any fork inside the core. -/
theorem forkRunOffKillsParentKeepsChild : Obligations.ForkRunOffKillsParentKeepsChild := by
  intro rt s r hr ha hrunOff
  have hexec := execFrk_inRange hr ha
  rw [if_neg (Int.not_le.mpr hrunOff)] at hexec
  obtain ⟨hchild, hcopied, hproc⟩ := State.forked_spec (q := r.p.kill.advance) hr ha ⟨rfl, rfl, rfl⟩ rfl
  exact ⟨_, _, hexec, hchild, hcopied, hproc, Killed.kill_advance r.p⟩

/-- Settles O30: the fork is the fault action. -/
theorem forkOutOfRangeKillsParent : Obligations.ForkOutOfRangeKillsParent := fun _ _ _ hr ha =>
  ⟨_, _, execFrk_outOfRange hr (Bool.eq_false_iff.mp ha), State.killRunning_kills hr⟩

/-- Settles O33: service 0 is the fault action, and so is an id that names no service. -/
theorem syscallHaltAndUnknownKill : Obligations.SyscallHaltAndUnknownKill := fun _ _ hr hid =>
  ⟨_, _, exec_syscall_kill hr hid, State.killRunning_kills hr⟩

/-- Settles O34: each of the seven ids names a service that answers the number stated. -/
theorem syscallConstantsAndIdentity : Obligations.SyscallConstantsAndIdentity := fun _ _ hr =>
  ⟨Answers.of_service hr (v := .coreSize) rfl rfl, Answers.of_service hr (v := .networkSize) rfl rfl,
    Answers.of_service hr (v := .ownId) rfl rfl, Answers.of_service hr (v := .ownPlayer) rfl rfl,
    Answers.of_service hr (v := .remoteA) rfl rfl, Answers.of_service hr (v := .remoteB) rfl rfl,
    Answers.of_service hr (v := .memorySize) rfl rfl⟩

/-- Settles O35: a group is runnable exactly when one of its processes is alive. -/
theorem syscallCountsGroups : Obligations.SyscallCountsGroups := fun s _ hr =>
  ⟨State.runnableGroups_eq s ▸ Answers.of_service hr (v := .runnableGroups) rfl rfl,
    Answers.of_service hr (v := .players) rfl rfl⟩

/-- Settles O36: the draw is a residue modulo the core size, and a core size fits a word. -/
theorem syscallRandomIsBelowCoreSize : Obligations.SyscallRandomIsBelowCoreSize := by
  intro s r hr hpos hmax hid
  have hexec := exec_syscall_service hr (v := .random) (by rw [hid]; rfl)
  obtain ⟨⟨hframe, hdraws, hcore⟩, hproc, hwrite⟩ := State.answer_spec ((State.running_drawn s).trans hr) s.draw
  exact ⟨_, _, _, hexec, hframe.drawn, hcore, hdraws, hproc, hwrite,
    (State.toNat_w32_draw hpos hmax).trans_lt (State.draw_lt hpos)⟩

/-- Settles O37: the group of register 2 decides between the answer and the refusal. -/
theorem syscallGroupServices : Obligations.SyscallGroupServices := by
  refine fun s r hr => ⟨fun g hg => ⟨?_, ?_⟩, fun hnone => ⟨fun hid => ?_, fun hid => ?_⟩⟩
  · have hscore := Answers.of_service (id := 8) hr rfl (runService_score hg)
    rwa [BitVec.ofNat_toNat, BitVec.setWidth_eq] at hscore
  · exact g.runnableCount_eq ▸ Answers.of_service (id := 11) hr rfl (runService_runnableProcesses hg)
  · exact (exec_syscall_service hr (by rw [hid]; rfl)).trans
      (runService_score_noGroup (State.groupOf_eq_none hnone))
  · exact (exec_syscall_service hr (by rw [hid]; rfl)).trans
      (runService_runnableProcesses_noGroup (State.groupOf_eq_none hnone))

/-- Settles O7: an admitted table has the entry of `hlt` (W4 of R99), and the two fields are all that it asks for. -/
theorem everyFunctThirteenIsHlt : Obligations.EveryFunctThirteenIsHlt := by
  refine ⟨rfl, fun T w hT hop hfunct => ?_⟩
  obtain ⟨hentries, -, -, hmem⟩ := tableOk_spec hT
  have hop' : opcodeField w = 0 := by rw [← toNat_shiftRight_opcode, hop]; rfl
  have hfunct' : functField w = 13 := by rw [← toNat_and_funct, hfunct]; rfl
  have hsel := (TableEntry.selects_of_opcode_zero hop' ⟨.hlt, 0, 13⟩).mpr ⟨rfl, hfunct'⟩
  exact resolveIn_of_key hT hmem ((selects_iff_key (hentries _ hmem) w).mp hsel)

/-- Settles O29: `hlt` is the fault action. -/
theorem hltKillsOnlyItself : Obligations.HltKillsOnlyItself := fun s =>
  Completes.of_updateRunning (exec_hlt s) Killed.kill_advance

/-- Settles O38: each of the three is the default advance. -/
theorem reservedInstructionsOnlyAdvance : Obligations.ReservedInstructionsOnlyAdvance := fun s =>
  ⟨Completes.of_updateRunning (exec_opn s) Process.advance_eq,
    Completes.of_updateRunning (exec_rfrk s) Process.advance_eq,
    Completes.of_updateRunning (exec_rsw s) Process.advance_eq⟩

end Sys2Proof.Proofs

/-! The statements about the scheduler (47_scheduler_fetch.md). A group looks at its processes in the rotation of its list
that begins at its cursor; a turn that kills none and adds none rotates its live processes by one. A tick moves the
machine's cursor by one and touches no group but the one on turn, so a group's next turn is one round of ticks later, and
the cursor names the first group again only at the end of a cycle. -/

namespace Sys2Proof.Machine

/-! ## The order in which a group looks at its processes -/

/-- The indices of a group's processes from its cursor on, wrapping once (R242). -/
def Group.scan (g : Group) : List Nat :=
  (List.range g.procs.length).map (fun k => (g.pcur + k) % g.procs.length)

theorem Group.pick_eq_find (g : Group) : g.pick = g.scan.find? g.aliveAt := rfl

theorem Group.liveFromCursor_eq_filter (g : Group) : g.liveFromCursor = g.scan.filter g.aliveAt := rfl

theorem Group.pick_eq_head (g : Group) : g.pick = g.liveFromCursor.head? := by
  rw [Group.pick_eq_find, Group.liveFromCursor_eq_filter, List.head?_filter]

theorem Group.length_scan (g : Group) : g.scan.length = g.procs.length := by
  rw [Group.scan, List.length_map, List.length_range]

theorem Group.getElem_scan (g : Group) {k : Nat} (h : k < g.scan.length) :
    g.scan[k] = (g.pcur + k) % g.procs.length := by
  simp only [Group.scan, List.getElem_map, List.getElem_range]

theorem Group.scan_eq_rotate (g : Group) : g.scan = (List.range g.procs.length).rotate g.pcur := by
  refine List.ext_getElem (by simp [Group.length_scan]) fun k hk _ => ?_
  rw [Group.getElem_scan, List.getElem_rotate, List.getElem_range, List.length_range, Nat.add_comm]

theorem Group.mem_scan (g : Group) (i : Nat) : i ∈ g.scan ↔ i < g.procs.length := by
  rw [Group.scan_eq_rotate, List.mem_rotate, List.mem_range]

/-- The pick of a group is the first index of the scan at which a live process stands. -/
theorem Group.pick_eq_some_iff (g : Group) (i : Nat) : g.pick = some i ↔
    ∃ k, k < g.procs.length ∧ i = (g.pcur + k) % g.procs.length ∧ g.aliveAt i = true ∧
      ∀ k', k' < k → g.aliveAt ((g.pcur + k') % g.procs.length) = false := by
  rw [Group.pick_eq_find, List.find?_eq_some_iff_getElem]
  constructor
  · rintro ⟨halive, k, hk, hik, hbefore⟩
    refine ⟨k, g.length_scan ▸ hk, hik.symm.trans (g.getElem_scan hk), halive, fun k' hk' => ?_⟩
    have hdead := hbefore k' hk'
    rwa [Group.getElem_scan, Bool.not_eq_true'] at hdead
  · rintro ⟨k, hk, hik, halive, hbefore⟩
    refine ⟨halive, k, g.length_scan.symm ▸ hk, (g.getElem_scan _).trans hik.symm, fun k' hk' => ?_⟩
    rw [Group.getElem_scan, Bool.not_eq_true']
    exact hbefore k' hk'

/-- With the cursor one past the `k`-th index of the scan, the scan is the old one rotated past that index. -/
theorem Group.scan_past {g h : Group} {k : Nat} (hlen : h.procs.length = g.procs.length)
    (hcur : h.pcur = ((g.pcur + k) % g.procs.length + 1) % h.procs.length) : h.scan = g.scan.rotate (k + 1) := by
  have hmod : h.pcur = (g.pcur + (k + 1)) % (List.range g.procs.length).length := by
    rw [hcur, hlen, Nat.mod_add_mod, List.length_range, Nat.add_assoc]
  rw [Group.scan_eq_rotate, Group.scan_eq_rotate, hlen, hmod, List.rotate_mod, List.rotate_rotate]

/-! ## Which processes are alive -/

theorem Group.aliveAt_iff (g : Group) (i : Nat) : g.aliveAt i = true ↔ ∃ p, g.procs[i]? = some p ∧ p.alive = true := by
  rw [Group.aliveAt, Option.any_eq_true]

/-- Two groups with the same liveness flags agree on every index. -/
theorem Group.aliveAt_congr {g h : Group} (hl : h.liveness = g.liveness) : h.aliveAt = g.aliveAt := by
  have haliveAt (f : Group) (i : Nat) : f.aliveAt i = (f.liveness[i]?).any id := by
    rw [Group.aliveAt, Group.liveness, List.getElem?_map, Option.any_map]
    rfl
  funext i
  rw [haliveAt, haliveAt, hl]

theorem Group.length_procs_congr {g h : Group} (hl : h.liveness = g.liveness) : h.procs.length = g.procs.length := by
  simpa only [Group.liveness, List.length_map] using congrArg List.length hl

theorem Group.pick_eq_none_iff (g : Group) : g.pick = none ↔ ∀ p ∈ g.procs, p.alive = false := by
  rw [Group.pick_eq_find, List.find?_eq_none]
  constructor
  · intro hnone p hp
    obtain ⟨i, hi⟩ := List.mem_iff_getElem?.mp hp
    have hmem := (g.mem_scan i).mpr (List.getElem?_eq_some_iff.mp hi).1
    exact Bool.eq_false_iff.mpr fun halive => hnone i hmem ((g.aliveAt_iff i).mpr ⟨p, hi, halive⟩)
  · intro hdead i _ halive
    obtain ⟨p, hp, hpalive⟩ := (g.aliveAt_iff i).mp halive
    rw [hdead p (List.mem_of_getElem? hp)] at hpalive
    cases hpalive

/-- A turn that keeps the liveness flags rotates the live processes by one: the process that ran is now the last. -/
theorem Group.liveFromCursor_served {g h : Group} {i : Nat} (hi : g.pick = some i) (hl : h.liveness = g.liveness)
    (hcur : h.pcur = (i + 1) % h.procs.length) : h.liveFromCursor = g.liveFromCursor.rotate 1 := by
  obtain ⟨rest, hrest⟩ := List.head?_eq_some_iff.mp (g.pick_eq_head.symm.trans hi)
  obtain ⟨pre, post, hscan, hpre, hlive, hpost⟩ :=
    List.filter_eq_cons_iff.mp (g.liveFromCursor_eq_filter.symm.trans hrest)
  have hlt : pre.length < g.scan.length := by rw [hscan]; simp
  have hk : (g.pcur + pre.length) % g.procs.length = i := by
    rw [← g.getElem_scan hlt]
    simp [hscan]
  have hsplit : h.scan = post ++ (pre ++ [i]) := by
    rw [Group.scan_past (Group.length_procs_congr hl) (hk ▸ hcur), hscan, List.append_cons,
      ← List.rotate_append_length_eq (pre ++ [i]) post, List.length_append, List.length_singleton]
  have hdead : pre.filter g.aliveAt = [] := List.filter_eq_nil_iff.mpr hpre
  calc h.liveFromCursor = h.scan.filter g.aliveAt := by
        rw [Group.liveFromCursor_eq_filter, Group.aliveAt_congr hl]
    _ = rest ++ [i] := by
        rw [hsplit, List.filter_append, List.filter_append, hpost, hdead, List.filter_singleton, hlive]; rfl
    _ = g.liveFromCursor.rotate 1 := by rw [hrest, List.rotate_cons_succ, List.rotate_zero]

/-! ## The process on turn -/

/-- The first live process from the cursor of the group on turn is the process on turn. -/
theorem State.running_of_head {s : State} {g : Group} {i : Nat} (hg : s.groups[s.gcur]? = some g)
    (hi : g.liveFromCursor.head? = some i) :
    ∃ r, s.running = some r ∧ r.group = s.gcur ∧ r.proc = i := by
  have hpick : g.pick = some i := g.pick_eq_head.trans hi
  obtain ⟨p, hp, -⟩ := (g.aliveAt_iff i).mp (Group.pick_spec hpick).2
  exact ⟨_, State.running_of hg hpick hp, rfl, rfl⟩

theorem State.running_eq_none {s : State}
    (h : ∀ g, s.groups[s.gcur]? = some g → ∀ p ∈ g.procs, p.alive = false) : s.running = none := by
  by_contra hsome
  obtain ⟨r, hr⟩ := Option.ne_none_iff_exists'.mp hsome
  obtain ⟨hgroup, hg, -, hp, halive⟩ := State.running_spec hr
  rw [h r.g (hgroup ▸ hg) r.p (List.mem_of_getElem? hp)] at halive
  cases halive

/-! ## The fetch and the instruction of a turn -/

/-- A cell is not foreign to a player exactly when every owner it has, if any, is that player's. -/
theorem Cell.foreignTo_eq_false_iff (c : Cell) (k : Nat) :
    c.foreignTo k = false ↔ ∀ o, c.owner = some o → o.player = k := by
  obtain ⟨w, _ | o⟩ := c
  · simp [Cell.foreignTo]
  · simp [Cell.foreignTo_owned]

/-- The two tests of the fetch as one. -/
theorem fetch_eq (s : State) (g : Group) (p : Process) :
    fetch s g p = if s.inRange (sval p.pc) = true ∧ (s.cellAt (sval p.pc)).foreignTo g.player = false
      then s.memRead (sval p.pc) else Config.hltWord := by
  unfold fetch
  by_cases ha : s.inRange (sval p.pc) = true
  · by_cases hf : (s.cellAt (sval p.pc)).foreignTo g.player = true
    · simp [ha, hf]
    · simp [ha, hf]
  · simp [ha]

section

variable {cfg : Config} {s : State} {r : Running}

theorem runTurn_resolved {i : Instr} (hi : resolveIn cfg.table (fetch s r.g r.p) = some i) :
    runTurn cfg s r = exec i s := by simp only [runTurn, hi]

theorem runTurn_unresolved (hi : resolveIn cfg.table (fetch s r.g r.p) = none) :
    runTurn cfg s r = unknownWord cfg.unknownPolicy (fetch s r.g r.p) s r := by simp only [runTurn, hi]

/-- Under the policy `kill` an unknown word is the fault action, followed by the end of the tick (R247). -/
theorem tick_unresolved_kill (hr : s.running = some r) (hi : resolveIn cfg.table (fetch s r.g r.p) = none)
    (hpolicy : cfg.unknownPolicy = .kill) : tick cfg s = .next ((s.killRunning r).afterRun r) := by
  rw [tick_running hr, runTurn_unresolved hi, hpolicy]
  rfl

/-- Under the policy `fault` an unknown word stops the machine (R247). -/
theorem tick_unresolved_fault (hr : s.running = some r) (hi : resolveIn cfg.table (fetch s r.g r.p) = none)
    (hpolicy : cfg.unknownPolicy = .fault) :
    tick cfg s = .fault (.unknownInstruction (fetch s r.g r.p) (sval r.p.pc)) := by
  rw [tick_running hr, runTurn_unresolved hi, hpolicy]
  rfl

/-- The end of a tick as a record: the number of groups is the one before the group's own cursor moved. -/
theorem State.afterRun_eq (s : State) (r : Running) :
    s.afterRun r = { s with
      groups := s.groups.modify r.group (fun g => g.served r.proc)
      gcur := (s.gcur + 1) % s.groups.length } := by
  simp only [State.afterRun, State.rotate, State.modifyGroup, List.length_modify]

theorem tick_noGroups (h : s.groups = []) : tick cfg s = .next s := if_pos h

theorem tick_noProcess (h : s.groups ≠ []) (hr : s.running = none) : tick cfg s = .next s.rotate := by
  simp only [tick, h, hr, if_false]

end

/-! ## What one tick does to the groups and the cursors -/

section

variable {cfg : Config} {s t : State} {r : Running}

/-- The machine's cursor moves to the next group, and no group comes or goes. -/
theorem tick_rotates (h : tick cfg s = .next t) :
    t.groups.length = s.groups.length ∧ (s.groups ≠ [] → t.gcur = (s.gcur + 1) % s.groups.length) := by
  rcases tick_cases h with ⟨hnil, rfl⟩ | ⟨-, -, rfl⟩ | ⟨r, cs, q, u, -, -, -, e, rfl⟩
  · exact ⟨rfl, fun hne => absurd hnil hne⟩
  · exact ⟨rfl, fun _ => rfl⟩
  · simp only [State.afterRun_groups, State.afterRun_gcur, List.length_modify, e.groups, e.gcur, implies_true,
      and_self]

/-- A tick touches no group but the one on turn. -/
theorem tick_otherGroup (h : tick cfg s = .next t) {k : Nat} (hk : k ≠ s.gcur) : t.groups[k]? = s.groups[k]? := by
  rcases tick_cases h with ⟨-, rfl⟩ | ⟨-, -, rfl⟩ | ⟨r, cs, q, u, -, hr, -, e, rfl⟩
  · rfl
  · rfl
  · have hk' : k ≠ r.group := (State.running_spec hr).1 ▸ hk
    rw [State.afterRun_groups, List.getElem?_modify_ne _ _ hk'.symm, e.otherGroup_eq hr hk']

/-- The group of the process on turn records it and puts its cursor one past it (R248). -/
theorem tick_served (h : tick cfg s = .next t) (hr : s.running = some r) :
    ∃ g, t.groups[r.group]? = some g ∧ g.player = r.g.player ∧ g.last = some r.proc ∧
      g.pcur = (r.proc + 1) % g.procs.length := by
  rcases tick_cases h with ⟨hnil, -⟩ | ⟨-, hnone, -⟩ | ⟨r', cs, q, u, -, hr', -, e, rfl⟩
  · obtain ⟨-, hg, -⟩ := State.running_spec hr
    simp [hnil] at hg
  · rw [hr] at hnone; cases hnone
  · obtain rfl : r = r' := Option.some.inj (hr.symm.trans hr')
    refine ⟨(r.g.ran r.proc cs q).served r.proc, ?_, rfl, rfl, rfl⟩
    rw [State.afterRun_groups, List.getElem?_modify_eq, e.group_eq hr]
    rfl

/-! ## Several ticks -/

theorem State.after_add (cfg : Config) (m n : Nat) (s : State) :
    s.after cfg (m + n) = (s.after cfg m).bind (State.after cfg n) := by
  induction m generalizing s with
  | zero => rw [Nat.zero_add]; rfl
  | succ m ih =>
    rw [Nat.add_right_comm, State.after, State.after]
    split
    · exact ih _
    · rfl
    · rfl

theorem State.after_add_some {m n : Nat} (h : s.after cfg (m + n) = some t) :
    ∃ u, s.after cfg m = some u ∧ u.after cfg n = some t :=
  Option.bind_eq_some_iff.mp ((State.after_add cfg m n s).symm.trans h)

theorem State.after_one (h : s.after cfg 1 = some t) : tick cfg s = .next t := by
  rw [State.after] at h
  split at h
  · next u hu => exact hu.trans (congrArg _ (Option.some.inj h))
  · cases h
  · cases h

/-- After `n` ticks the machine's cursor is `n` groups on, and no group has come or gone. -/
theorem State.after_rotates {n : Nat} (hcur : s.gcur < s.groups.length) (h : s.after cfg n = some t) :
    t.groups.length = s.groups.length ∧ t.gcur = (s.gcur + n) % s.groups.length := by
  induction n generalizing t with
  | zero =>
    obtain rfl := Option.some.inj h
    exact ⟨rfl, (Nat.mod_eq_of_lt hcur).symm⟩
  | succ n ih =>
    obtain ⟨u, hu, hut⟩ := State.after_add_some h
    obtain ⟨hlen, hgcur⟩ := ih hu
    obtain ⟨hlen', hgcur'⟩ := tick_rotates (State.after_one hut)
    have hne : u.groups ≠ [] := List.length_pos_iff.mp (hlen ▸ Nat.zero_lt_of_lt hcur)
    exact ⟨hlen'.trans hlen, by rw [hgcur' hne, hgcur, hlen, Nat.mod_add_mod, Nat.add_assoc]⟩

/-- A group that is not on turn in any of `n` ticks is as before. -/
theorem State.after_otherGroup {n k : Nat} (hcur : s.gcur < s.groups.length) (h : s.after cfg n = some t)
    (hk : ∀ j, j < n → (s.gcur + j) % s.groups.length ≠ k) : t.groups[k]? = s.groups[k]? := by
  induction n generalizing t with
  | zero => rw [Option.some.inj h]
  | succ n ih =>
    obtain ⟨u, hu, hut⟩ := State.after_add_some h
    obtain ⟨-, hgcur⟩ := State.after_rotates hcur hu
    have hturn : k ≠ u.gcur := hgcur ▸ (hk n n.lt_succ_self).symm
    rw [tick_otherGroup (State.after_one hut) hturn, ih hu fun j hj => hk j (Nat.lt_succ_of_lt hj)]

/-- Fewer than `G` groups on is another group. -/
theorem add_mod_ne {c d G : Nat} (hc : c < G) (hd : 0 < d) (hdG : d < G) : (c + d) % G ≠ c := fun h => by
  have hmod : d % G = 0 % G := Nat.ModEq.add_left_cancel' c (h.trans (Nat.mod_eq_of_lt hc).symm)
  rw [Nat.mod_eq_of_lt hdG, Nat.zero_mod] at hmod
  exact hd.ne' hmod

/-- One round of ticks from a turn of a group: the process on turn runs, the other groups have their turns, and the group
is on turn again. -/
theorem State.after_round {g : Group} (hr : s.running = some r) (h : s.after cfg s.groups.length = some t)
    (hg : t.groups[s.gcur]? = some g) :
    t.groups.length = s.groups.length ∧ t.gcur = s.gcur ∧ g.pcur = (r.proc + 1) % g.procs.length := by
  obtain ⟨hgroup, hrg, -⟩ := State.running_spec hr
  have hcur : s.gcur < s.groups.length := hgroup ▸ (List.getElem?_eq_some_iff.mp hrg).1
  obtain ⟨hlen, hgcur⟩ := State.after_rotates hcur h
  refine ⟨hlen, hgcur.trans (by rw [Nat.add_mod_right, Nat.mod_eq_of_lt hcur]), ?_⟩
  have hround : s.groups.length = 1 + (s.groups.length - 1) := by omega
  rw [hround] at h
  obtain ⟨u, hu, hut⟩ := State.after_add_some h
  have hu := State.after_one hu
  obtain ⟨hulen, hugcur⟩ := tick_rotates hu
  have hugcur := hugcur (List.length_pos_iff.mp (Nat.zero_lt_of_lt hcur))
  have hucur : u.gcur < u.groups.length := by
    rw [hugcur, hulen]
    exact Nat.mod_lt _ (Nat.zero_lt_of_lt hcur)
  have hothers : t.groups[s.gcur]? = u.groups[s.gcur]? := by
    refine State.after_otherGroup hucur hut fun j hj => ?_
    rw [hugcur, hulen, Nat.mod_add_mod, Nat.add_assoc]
    exact add_mod_ne hcur (by omega) (by omega)
  obtain ⟨g', hg', -, -, hpcur⟩ := tick_served hu hr
  obtain rfl : g = g' := Option.some.inj (hg.symm.trans (hothers.trans (hgroup ▸ hg')))
  exact hpcur

end

/-! ## Fairness -/

/-- The state at the `m`-th turn of the group on turn in `s`, counted from 0, in a run in which none of its processes
dies and none is added: the group has rotated its live processes `m` times. -/
structure State.AtTurn (cfg : Config) (s : State) (g : Group) (m : Nat) (t : State) (h : Group) : Prop where
  after : s.after cfg (m * s.groups.length) = some t
  length : t.groups.length = s.groups.length
  gcur : t.gcur = s.gcur
  group : t.groups[s.gcur]? = some h
  liveness : h.liveness = g.liveness
  live : h.liveFromCursor = g.liveFromCursor.rotate m

/-- The premise of R253 on a run: after each of its first `n` ticks the group on turn in `s` has as many processes as `g`,
with the same liveness flags. -/
def State.KeepsLiveness (cfg : Config) (s : State) (g : Group) (n : Nat) : Prop :=
  ∀ k, k ≤ n → ∃ t h, s.after cfg k = some t ∧ t.groups[s.gcur]? = some h ∧ h.liveness = g.liveness

section

variable {cfg : Config} {s t : State} {g h : Group} {m i : Nat}

theorem State.AtTurn.zero (cfg : Config) (hg : s.groups[s.gcur]? = some g) : s.AtTurn cfg g 0 s g :=
  { after := by rw [Nat.zero_mul]; rfl, length := rfl, gcur := rfl, group := hg, liveness := rfl,
    live := (List.rotate_zero _).symm }

/-- The `m`-th turn runs the `m`-th live process. -/
theorem State.AtTurn.running (a : s.AtTurn cfg g m t h) (hi : g.liveFromCursor[m]? = some i) :
    ∃ r, t.running = some r ∧ r.group = s.gcur ∧ r.proc = i := by
  have hm := (List.getElem?_eq_some_iff.mp hi).1
  have hhead : h.liveFromCursor.head? = some i := by rw [a.live, List.head?_rotate hm, hi]
  have hrunning := State.running_of_head (a.gcur ▸ a.group) hhead
  rwa [a.gcur] at hrunning

/-- One round after the `m`-th turn is the next turn, and the group's cursor is past the process that ran. -/
theorem State.AtTurn.succ (a : s.AtTurn cfg g m t h) (hi : g.liveFromCursor[m]? = some i)
    (hkeep : s.KeepsLiveness cfg g ((m + 1) * s.groups.length)) :
    ∃ t' h', s.AtTurn cfg g (m + 1) t' h' ∧ h'.pcur = (i + 1) % g.procs.length := by
  obtain ⟨r, hr, hgroup, rfl⟩ := a.running hi
  obtain ⟨t', h', ht', hh', hl'⟩ := hkeep _ Nat.le.refl
  have hround : t.after cfg t.groups.length = some t' := by
    rw [Nat.succ_mul, State.after_add, a.after] at ht'
    exact a.length ▸ ht'
  obtain ⟨hlen, hgcur, hpcur⟩ := State.after_round hr hround (a.gcur ▸ hh')
  obtain ⟨-, hrg, hpick, -⟩ := State.running_spec hr
  obtain rfl : h = r.g := Option.some.inj (a.group.symm.trans (hgroup ▸ hrg))
  refine ⟨t', h', ?_, by rw [hpcur, Group.length_procs_congr hl']⟩
  exact
    { after := ht', length := hlen.trans a.length, gcur := hgcur.trans a.gcur, group := hh', liveness := hl',
      live := by rw [Group.liveFromCursor_served hpick (hl'.trans a.liveness.symm) hpcur, a.live, List.rotate_rotate] }

theorem State.exists_atTurn (hg : s.groups[s.gcur]? = some g)
    (hkeep : s.KeepsLiveness cfg g (g.liveFromCursor.length * s.groups.length)) (hm : m ≤ g.liveFromCursor.length) :
    ∃ t h, s.AtTurn cfg g m t h := by
  induction m with
  | zero => exact ⟨s, g, State.AtTurn.zero cfg hg⟩
  | succ m ih =>
    obtain ⟨t, h, a⟩ := ih (Nat.le_of_succ_le hm)
    have hkeep' : s.KeepsLiveness cfg g ((m + 1) * s.groups.length) := fun k hk =>
      hkeep k (hk.trans (Nat.mul_le_mul_right _ hm))
    obtain ⟨t', h', a', -⟩ := a.succ (List.getElem?_eq_getElem hm) hkeep'
    exact ⟨t', h', a'⟩

end

/-! ## The verdict -/

theorem Group.runnable_iff (g : Group) : g.runnable = true ↔ ∃ p ∈ g.procs, p.alive = true := by
  rw [Group.runnable_eq_any, List.any_eq_true]

theorem State.runnableGroups_eq_length (s : State) :
    s.runnableGroups = (s.groups.filter Group.runnable).length := List.countP_eq_length_filter

theorem State.verdict_draw {s : State} (h : s.groups.filter Group.runnable = []) : s.verdict = .draw := by
  simp only [State.verdict, h]

theorem State.verdict_winner {s : State} {g : Group} (h : s.groups.filter Group.runnable = [g]) :
    s.verdict = .winner g.player := by
  simp only [State.verdict, h]

theorem State.verdict_continuing {s : State} {g g' : Group} {gs : List Group}
    (h : s.groups.filter Group.runnable = g :: g' :: gs) : s.verdict = .continuing := by
  simp only [State.verdict, h]

/-- With one runnable group, a runnable group of a player is that one. -/
theorem State.exists_runnable_iff {s : State} {g : Group} (h : s.groups.filter Group.runnable = [g]) (k : Nat) :
    (∃ g' ∈ s.groups, (∃ p ∈ g'.procs, p.alive = true) ∧ g'.player = k) ↔ g.player = k := by
  have hmem (g' : Group) : (g' ∈ s.groups ∧ ∃ p ∈ g'.procs, p.alive = true) ↔ g' = g := by
    rw [← Group.runnable_iff, ← List.mem_filter, h, List.mem_singleton]
  constructor
  · rintro ⟨g', hg', hlive, hk⟩
    exact (hmem g').mp ⟨hg', hlive⟩ ▸ hk
  · intro hk
    obtain ⟨hg, hlive⟩ := (hmem g).mpr rfl
    exact ⟨g, hg, hlive, hk⟩

/-! ## The cycle -/

section

variable {cfg : Config} {s t u : State} {n k fuel : Nat}

/-- A tick that does not bring the cursor back to the first group goes on with the cycle. -/
theorem toCycleEnd_continues (h : tick cfg s = .next t) (ht : t.gcur ≠ 0) :
    toCycleEnd cfg (fuel + 1) s = toCycleEnd cfg fuel t := by
  simp only [toCycleEnd, h, ht, if_false]

theorem toCycleEnd_ends (h : tick cfg s = .next t) (ht : t.gcur = 0) : toCycleEnd cfg (fuel + 1) s = .next t := by
  simp only [toCycleEnd, h, ht, if_true]

theorem toCycleEnd_fault {f : Fault} (h : tick cfg s = .fault f) : toCycleEnd cfg (fuel + 1) s = .fault f := by
  simp only [toCycleEnd, h]

theorem toCycleEnd_refused {f : Refusal} (h : tick cfg s = .refused f) :
    toCycleEnd cfg (fuel + 1) s = .refused f := by
  simp only [toCycleEnd, h]

/-- Inside a cycle the cursor names no group for the second time, so the ticks taken so far do not end it. -/
theorem toCycleEnd_after (hk : s.gcur + k < s.groups.length) (h : s.after cfg k = some u) (fuel : Nat) :
    toCycleEnd cfg (k + fuel) s = toCycleEnd cfg fuel u := by
  induction k generalizing u fuel with
  | zero => rw [Nat.zero_add, Option.some.inj h]
  | succ k ih =>
    obtain ⟨v, hv, hvu⟩ := State.after_add_some h
    obtain ⟨-, hgcur⟩ := State.after_rotates (by omega) h
    have hne : u.gcur ≠ 0 := by rw [hgcur, Nat.mod_eq_of_lt hk]; omega
    rw [Nat.add_assoc, Nat.add_comm 1, ih (by omega) hv, toCycleEnd_continues (State.after_one hvu) hne]

/-- Fewer than `G - c` ticks into a cycle from group `c` the cycle still has a tick to take. -/
theorem toCycleEnd_inside (hk : s.gcur + k < s.groups.length) (h : s.after cfg k = some u) :
    ∃ fuel, toCycleEnd cfg s.groups.length s = toCycleEnd cfg (fuel + 1) u := by
  obtain ⟨fuel, hfuel⟩ := Nat.exists_eq_add_of_lt (show k < s.groups.length by omega)
  exact ⟨fuel, by rw [← toCycleEnd_after hk h, ← Nat.add_assoc, ← hfuel]⟩

/-- A cycle from group `c` of `G` is `G - c` ticks. -/
theorem toCycleEnd_whole (hcur : s.gcur < s.groups.length)
    (h : s.after cfg (s.groups.length - s.gcur) = some t) :
    t.gcur = 0 ∧ toCycleEnd cfg s.groups.length s = .next t := by
  obtain ⟨-, hgcur⟩ := State.after_rotates hcur h
  rw [Nat.add_sub_cancel' hcur.le, Nat.mod_self] at hgcur
  rw [show s.groups.length - s.gcur = (s.groups.length - s.gcur - 1) + 1 by omega] at h
  obtain ⟨u, hu, hut⟩ := State.after_add_some h
  obtain ⟨fuel, hfuel⟩ := toCycleEnd_inside (by omega) hu
  exact ⟨hgcur, hfuel.trans (toCycleEnd_ends (State.after_one hut) hgcur)⟩

/-! ## `Run` -/

theorem run_eq_runCycles (h : s.groups ≠ []) : run cfg n s = runCycles cfg n s := if_neg h

/-- A cycle that ends is judged at its end. -/
theorem run_succ_next (h : s.groups ≠ []) (ht : t.groups ≠ []) (hc : toCycleEnd cfg s.groups.length s = .next t) :
    run cfg (n + 1) s = if t.verdict = .continuing then run cfg n t else .next (t, t.verdict) := by
  rw [run_eq_runCycles h, run_eq_runCycles ht]
  simp only [runCycles, hc]

theorem run_succ_fault {f : Fault} (h : s.groups ≠ []) (hc : toCycleEnd cfg s.groups.length s = .fault f) :
    run cfg (n + 1) s = .fault f := by
  rw [run_eq_runCycles h]
  simp only [runCycles, hc]

theorem run_succ_refused {f : Refusal} (h : s.groups ≠ []) (hc : toCycleEnd cfg s.groups.length s = .refused f) :
    run cfg (n + 1) s = .refused f := by
  rw [run_eq_runCycles h]
  simp only [runCycles, hc]

end

/-! ## The host's queries -/

section

variable {s : State} {k : Int}

theorem State.countRunnable_some {g : Group} (hg : s.groupOf k = some g) : s.countRunnable k = .ok g.runnableCount := by
  simp only [State.countRunnable, hg]

theorem State.countRunnable_none (hg : s.groupOf k = none) : s.countRunnable k = .error .noSuchGroup := by
  simp only [State.countRunnable, hg]

theorem State.scoreOf_some {g : Group} (hg : s.groupOf k = some g) :
    s.scoreOf k = .ok (score s.coreSize s.core s.groups s.gcur g) := by
  simp only [State.scoreOf, hg]

theorem State.scoreOf_none (hg : s.groupOf k = none) : s.scoreOf k = .error .noSuchGroup := by
  simp only [State.scoreOf, hg]

end

end Sys2Proof.Machine

/-! ## The statements about the scheduler -/

namespace Sys2Proof.Proofs

open Sys2Proof Sys2Proof.Machine

/-- Settles O39: the indices of the scan are those of the list, so its first live one is the pick and a scan without one
is a list without live processes. -/
theorem pickIsFirstLiveFromCursor : Obligations.PickIsFirstLiveFromCursor := fun g =>
  ⟨g.pick_eq_some_iff, g.pick_eq_none_iff⟩

/-- Settles O45: the parts of what a tick does to the cursors. -/
theorem cursorsAfterStep : Obligations.CursorsAfterStep := by
  intro s t r hr h
  obtain ⟨hgroup, hg, -⟩ := State.running_spec hr
  obtain ⟨hlen, hgcur⟩ := tick_rotates h
  have hne : s.groups ≠ [] := List.ne_nil_of_mem (List.mem_of_getElem? hg)
  exact ⟨hgcur hne, hlen, tick_served h hr, fun k hk => tick_otherGroup h (hgroup ▸ hk)⟩

/-- Settles O51: each turn rotates the live processes by one, so the `m`-th turn begins with the `m`-th of them, and the
last turn leaves the cursor past the last. -/
theorem liveProcessesRunInTurn : Obligations.LiveProcessesRunInTurn := by
  intro cfg s g hg hlive hkeep
  refine ⟨fun m i hi => ?_, ?_⟩
  · obtain ⟨t, h, a⟩ := State.exists_atTurn hg hkeep (List.getElem?_eq_some_iff.mp hi).1.le
    obtain ⟨r, hr⟩ := a.running hi
    exact ⟨t, r, a.after, hr⟩
  · obtain ⟨m, hm⟩ := Nat.exists_eq_add_one.mpr (List.length_pos_iff.mpr hlive)
    obtain ⟨t, h, a⟩ := State.exists_atTurn hg hkeep (m := m) (by omega)
    have hi : g.liveFromCursor[m]? = some g.liveFromCursor[m] := List.getElem?_eq_getElem (by omega)
    obtain ⟨t', h', a', hpcur⟩ := a.succ hi (hm ▸ hkeep)
    refine ⟨t', h', hm ▸ a'.after, a'.group, fun i hlast => ?_⟩
    rw [List.getLast?_eq_getElem?, hm, Nat.add_sub_cancel, hi] at hlast
    exact Option.some.inj hlast ▸ hpcur

/-- Settles O57: the verdict and the number of runnable groups both follow the list of runnable groups. -/
theorem verdictCountsRunnableGroups : Obligations.VerdictCountsRunnableGroups := by
  intro s
  rw [State.runnableGroups_eq_length]
  match hf : s.groups.filter Group.runnable with
  | [] => simp [State.verdict_draw hf]
  | [g] => simp [State.verdict_winner hf, State.exists_runnable_iff hf]
  | g :: g' :: gs => simp [State.verdict_continuing hf]

/-- Settles O58: the cursor comes back to the first group at the end of the cycle and not before, so every tick of the
cycle is taken, the stopping one included. -/
theorem runTakesWholeCycles : Obligations.RunTakesWholeCycles := by
  intro cfg n s
  refine ⟨fun h => if_pos h, fun h => run_eq_runCycles h, fun hcur t ht => ?_, fun k u hk hu => ?_⟩
  · obtain ⟨hlen, -⟩ := State.after_rotates hcur ht
    obtain ⟨hgcur, hcycle⟩ := toCycleEnd_whole hcur ht
    have hs := List.length_pos_iff.mp (Nat.zero_lt_of_lt hcur)
    have htne := List.length_pos_iff.mp (hlen ▸ Nat.zero_lt_of_lt hcur)
    exact ⟨hgcur, run_succ_next hs htne hcycle⟩
  · have hs : s.groups ≠ [] := List.length_pos_iff.mp (Nat.zero_lt_of_lt hk)
    obtain ⟨fuel, hfuel⟩ := toCycleEnd_inside hk hu
    exact ⟨fun f hf => run_succ_fault hs (hfuel.trans (toCycleEnd_fault hf)),
      fun f hf => run_succ_refused hs (hfuel.trans (toCycleEnd_refused hf))⟩

/-- Settles O1: a turn of a resolved word is the instruction and the end of the tick, and the operands of a resolved
instruction are fields of the word. -/
theorem stepRunsDecodedInstruction : Obligations.StepRunsDecodedInstruction := by
  intro s r i hr hi
  refine ⟨resolvedInstructionsAreWellFormed _ _ _ hi, ?_⟩
  rw [step, tick_running hr, runTurn_resolved (cfg := Config.default) hi]
  cases exec i s with
  | next t => exact congrArg Host.Outcome.next (t.afterRun_eq r)
  | fault f => rfl
  | refused f => rfl

/-- Settles O40: the range test and the owner test of the fetch, read as propositions. -/
theorem fetchSubstitutesHalt : Obligations.FetchSubstitutesHalt := by
  intro s g p
  rw [fetch_eq]
  refine if_congr ?_ rfl rfl
  rw [State.inRange_iff, Cell.foreignTo_eq_false_iff, and_assoc]
  exact Iff.rfl

/-- Settles O43: the kill is the fault action, and the end of the tick moves cursors only. -/
theorem unknownWordFaultsOrKills : Obligations.UnknownWordFaultsOrKills := by
  intro T s r hr hi
  obtain ⟨⟨⟨-, -, -, hothers⟩, -, hcore⟩, hproc, hkilled⟩ := State.killRunning_kills hr
  refine ⟨tick_unresolved_fault hr hi rfl, _, _, tick_unresolved_kill hr hi rfl,
    (State.procAt_afterRun ..).trans hproc, hkilled, hcore, fun k n hkn => ?_⟩
  rw [State.procAt_afterRun, hothers k n hkn]

/-- Settles O44: a group without a live process picks none. -/
theorem stepWithoutLiveProcess : Obligations.StepWithoutLiveProcess :=
  ⟨fun _ h => tick_noGroups h, fun _ h hdead => tick_noProcess h (State.running_eq_none hdead)⟩

/-- Settles O56: the group of the player number decides between the answer and the error. -/
theorem queriesCountGroups : Obligations.QueriesCountGroups := by
  refine fun s => ⟨rfl, s.runnableGroups_eq, fun k => ⟨fun g hg => ⟨?_, State.scoreOf_some hg⟩, fun hnone => ?_⟩⟩
  · exact g.runnableCount_eq ▸ State.countRunnable_some hg
  · have hg := State.groupOf_eq_none hnone
    exact ⟨State.countRunnable_none hg, State.scoreOf_none hg⟩

end Sys2Proof.Proofs

/-! The statements about exceptions (60_exceptions.md). One predicate on outcomes, the liveness flag of the process on
turn, carries the proof: each instruction leaves the flag that its kill cause says, and a forced halt is the fault action
whatever the cell holds. -/

namespace Sys2Proof.Machine

/-! ## The liveness flag of the process on turn -/

/-- If the outcome is a next state, the process on turn is still in its place there, with this liveness flag. -/
def LeavesAlive (o : Outcome) (r : Running) (b : Bool) : Prop :=
  ∀ t, o = .next t → ∃ q, t.procAt r.group r.proc = some q ∧ q.alive = b

section

variable {s t : State} {r : Running} {q : Process} {b : Bool}

theorem State.running_alive (hr : s.running = some r) : r.p.alive = true := by
  obtain ⟨-, -, -, -, halive⟩ := State.running_spec hr
  exact halive

theorem LeavesAlive.next (hq : t.procAt r.group r.proc = some q) (hb : q.alive = b) : LeavesAlive (.next t) r b := by
  rintro _ ⟨⟩
  exact ⟨q, hq, hb⟩

theorem LeavesAlive.fault (f : Fault) : LeavesAlive (.fault f) r b := nofun

theorem LeavesAlive.refused (f : Refusal) : LeavesAlive (.refused f) r b := nofun

/-- The end of the tick moves cursors only. -/
theorem LeavesAlive.finishTick {o : Outcome} (h : LeavesAlive o r b) : LeavesAlive (finishTick r o) r b := by
  intro t ht
  obtain ⟨u, hu, rfl⟩ := finishTick_next ht
  obtain ⟨q, hq, hb⟩ := h u hu
  exact ⟨q, (State.procAt_afterRun ..).trans hq, hb⟩

theorem LeavesAlive.of_killRunning (hr : s.running = some r) : LeavesAlive (.next (s.killRunning r)) r false := by
  obtain ⟨-, hproc, -, hdead, -⟩ := State.killRunning_kills hr
  exact .next hproc hdead

theorem LeavesAlive.of_setProc {p : Process} (hp : s.procAt r.group r.proc = some p) (hb : q.alive = b) :
    LeavesAlive (.next (s.setProc r.group r.proc q)) r b := .next (State.procAt_setProc_self q hp) hb

/-- The process on turn is alive, so an update that keeps the flag leaves it alive. -/
theorem LeavesAlive.of_updateRunning {f : Process → Process} (hr : s.running = some r)
    (hf : ∀ p, (f p).alive = p.alive) : LeavesAlive (s.updateRunning f) r true := by
  rw [State.updateRunning_eq hr]
  exact .of_setProc (State.running_procAt hr) ((hf r.p).trans (State.running_alive hr))

/-! ## The instructions that can kill -/

/-- Inside the core a load is a register write. -/
theorem LeavesAlive.of_lw (rt rs : Reg) (imm : Int) (hr : s.running = some r) :
    LeavesAlive (execLw rt rs imm s) r (instrKillCause (.lw rt rs imm) s r).isNone := by
  rw [instrKillCause]
  split
  · next ha =>
    rw [execLw_inRange hr ha]
    exact .of_setProc (State.running_procAt hr) (by simp [State.running_alive hr])
  · next ha =>
    rw [execLw_outOfRange hr ha]
    exact .of_killRunning hr

/-- Inside the core a store changes of the process its `pc` only. -/
theorem LeavesAlive.of_sw (rt rs : Reg) (imm : Int) (hr : s.running = some r) :
    LeavesAlive (execSw rt rs imm s) r (instrKillCause (.sw rt rs imm) s r).isNone := by
  rw [instrKillCause]
  split
  · next ha =>
    rw [execSw_inRange hr ha]
    exact .of_setProc ((State.procAt_memWrite ..).trans (State.running_procAt hr)) (State.running_alive hr)
  · next ha =>
    rw [execSw_outOfRange hr ha]
    exact .of_killRunning hr

/-- Inside the core the parent of a fork lives exactly when its program fits. -/
theorem LeavesAlive.of_frk (rt : Reg) (hr : s.running = some r) :
    LeavesAlive (execFrk rt s) r (instrKillCause (.frk rt) s r).isNone := by
  rw [instrKillCause]
  split
  · next ha =>
    rw [execFrk_inRange hr ha]
    split
    · obtain ⟨-, -, hproc⟩ := State.forked_spec (q := r.p.advance) hr ha ⟨rfl, rfl, rfl⟩ rfl
      exact .next hproc (State.running_alive hr)
    · obtain ⟨-, -, hproc⟩ := State.forked_spec (q := r.p.kill.advance) hr ha ⟨rfl, rfl, rfl⟩ rfl
      exact .next hproc rfl
  · next ha =>
    rw [execFrk_outOfRange hr ha]
    exact .of_killRunning hr

theorem LeavesAlive.of_answer (hr : s.running = some r) (z : Int) : LeavesAlive (.next (s.answer r z)) r true := by
  obtain ⟨-, hproc, -⟩ := State.answer_spec hr z
  exact .next hproc (by simp [State.running_alive hr])

/-- Every service but the halting one answers or is refused. -/
theorem LeavesAlive.of_service {v : Service} (hr : s.running = some r) (hv : v ≠ .halt) :
    LeavesAlive (runService v s r) r true := by
  cases v with
  | halt => exact absurd rfl hv
  | random => exact .of_answer ((State.running_drawn s).trans hr) _
  | score =>
    cases hg : s.groupOf (sval (r.p.read 2)) with
    | some g => exact runService_score hg ▸ .of_answer hr _
    | none => exact runService_score_noGroup hg ▸ .refused _
  | runnableProcesses =>
    cases hg : s.groupOf (sval (r.p.read 2)) with
    | some g => exact runService_runnableProcesses hg ▸ .of_answer hr _
    | none => exact runService_runnableProcesses_noGroup hg ▸ .refused _
  | coreSize | networkSize | ownId | ownPlayer | runnableGroups | players | remoteA | remoteB | memorySize =>
    exact .of_answer hr _

/-- The call ids from 1 to 12 name the services other than the halting one (R208). -/
theorem serviceOf_ne_halt {id : Int} (h0 : id ≠ 0) (hid : ¬(id < 0 ∨ 12 < id)) :
    ∃ v, serviceOf id = some v ∧ v ≠ .halt := by
  have hlo : 1 ≤ id := by omega
  have hhi : id ≤ 12 := by omega
  interval_cases id <;> exact ⟨_, rfl, nofun⟩

/-- A `syscall` kills by service 0 and by the unknown ids. -/
theorem LeavesAlive.of_syscall (hr : s.running = some r) :
    LeavesAlive (exec .syscall s) r (instrKillCause .syscall s r).isNone := by
  rw [instrKillCause]
  split
  · next h0 =>
    rw [exec_syscall_kill hr (Or.inl h0)]
    exact .of_killRunning hr
  · next h0 =>
    split
    · next hunknown =>
      rw [exec_syscall_kill hr (Or.inr hunknown)]
      exact .of_killRunning hr
    · next hknown =>
      obtain ⟨v, hv, hne⟩ := serviceOf_ne_halt h0 hknown
      rw [exec_syscall_service hr hv]
      exact .of_service hr hne

/-! ## All instructions -/

theorem exec_hlt_kills (hr : s.running = some r) : exec .hlt s = .next (s.killRunning r) :=
  (exec_hlt s).trans (State.updateRunning_eq hr _)

/-- An instruction leaves the process on turn alive exactly when its own kill cause is absent (R281, R285): seventeen
instructions write a register, `HI` and `LO`, or `pc` only, and have no cause. -/
theorem LeavesAlive.of_exec (i : Instr) (hr : s.running = some r) :
    LeavesAlive (exec i s) r (instrKillCause i s r).isNone := by
  cases i with
  | hlt => exact exec_hlt_kills hr ▸ .of_killRunning hr
  | lw rt rs imm => exact .of_lw rt rs imm hr
  | sw rt rs imm => exact .of_sw rt rs imm hr
  | frk rt => exact .of_frk rt hr
  | syscall => exact .of_syscall hr
  | sllv | srlv | sub | xor | slt | slti | andi =>
    simp only [exec_sllv, exec_srlv, exec_sub, exec_xor, exec_slt, exec_slti, exec_andi]
    exact .of_updateRunning hr fun p => by simp
  | mult | divu =>
    simp only [exec_mult, exec_divu]
    exact .of_updateRunning hr fun p => by simp
  | jr | blez | bgez | j | bne =>
    simp only [exec_jr, exec_blez, exec_bgez, exec_j, exec_bne]
    exact .of_updateRunning hr fun p => Process.setPc_alive ..
  | opn | rfrk | rsw => exact .of_updateRunning hr Process.advance_alive

end

/-! ## The forced halt -/

section

variable {cfg : Config} {s : State} {r : Running}

/-- The process executes the word stored at its `pc`, which is inside the core and on no foreign cell; else the fetch
forces a halt (47_scheduler_fetch.md R244). -/
def Running.FetchesStored (r : Running) (s : State) : Prop :=
  s.inRange (sval r.p.pc) = true ∧ (s.cellAt (sval r.p.pc)).foreignTo r.g.player = false

theorem fetch_stored (h : r.FetchesStored s) : fetch s r.g r.p = s.memRead (sval r.p.pc) :=
  (fetch_eq s r.g r.p).trans (if_pos h)

theorem fetch_forced (h : ¬ r.FetchesStored s) : fetch s r.g r.p = Config.hltWord :=
  (fetch_eq s r.g r.p).trans (if_neg h)

/-- The two conditions of R281 under which the fetch forces a halt. -/
theorem Running.not_fetchesStored (h : s.inRange (sval r.p.pc) = false ∨
    ∃ o, (Memory.read s.core (sval r.p.pc).toNat).owner = some o ∧ o.player ≠ r.g.player) :
    ¬ r.FetchesStored s := by
  rintro ⟨ha, hf⟩
  rcases h with hout | ⟨o, howner, hforeign⟩
  · exact Bool.eq_false_iff.mp hout ha
  · exact hforeign ((Cell.foreignTo_eq_false_iff _ _).mp hf o howner)

/-- Under every admitted table the forced-halt word is `hlt`, so its turn is the fault action. -/
theorem runTurn_hltWord (hT : tableOk cfg.table = true) (hr : s.running = some r)
    (hw : fetch s r.g r.p = Config.hltWord) : runTurn cfg s r = .next (s.killRunning r) := by
  obtain ⟨-, hresolve⟩ := Proofs.everyFunctThirteenIsHlt
  have hi : resolveIn cfg.table (fetch s r.g r.p) = some .hlt :=
    hw ▸ hresolve cfg.table Config.hltWord hT (by decide) (by decide)
  exact (runTurn_resolved hi).trans (exec_hlt_kills hr)

/-- The two causes of the fetch come before those of the stored instruction (R285). -/
theorem killCause_forced (T : List TableEntry) (h : ¬ r.FetchesStored s) : (killCause T s r).isNone = false := by
  rw [killCause]
  split
  · next ha =>
    have hforeign : (s.cellAt (sval r.p.pc)).foreignTo r.g.player = true := eq_true_of_ne_false fun hf => h ⟨ha, hf⟩
    rw [if_pos hforeign, Option.isNone_some]
  · rfl

/-- Where the fetch forces no halt, the cause is that of the instruction it gives. -/
theorem killCause_stored (T : List TableEntry) (h : r.FetchesStored s) :
    killCause T s r = (resolveIn T (fetch s r.g r.p)).bind (fun i => instrKillCause i s r) := by
  have ⟨ha, hf⟩ := h
  rw [fetch_stored h, killCause, if_pos ha, if_neg (Bool.eq_false_iff.mp hf)]

/-- Under the policy `fault` a turn leaves its process alive exactly when no kill cause holds: an unknown word answers
no next state. -/
theorem LeavesAlive.of_runTurn (hT : tableOk cfg.table = true) (hpolicy : cfg.unknownPolicy = .fault)
    (hr : s.running = some r) : LeavesAlive (runTurn cfg s r) r (killCause cfg.table s r).isNone := by
  by_cases hstored : r.FetchesStored s
  · rw [killCause_stored cfg.table hstored]
    cases hi : resolveIn cfg.table (fetch s r.g r.p) with
    | some i => exact runTurn_resolved hi ▸ .of_exec i hr
    | none => exact runTurn_unresolved hi ▸ hpolicy ▸ .fault _
  · rw [killCause_forced cfg.table hstored, runTurn_hltWord hT hr (fetch_forced hstored)]
    exact .of_killRunning hr

end

end Sys2Proof.Machine

/-! ## The statements about exceptions -/

namespace Sys2Proof.Proofs

open Sys2Proof Sys2Proof.Machine

/-- Settles O41: the fetch gives the intruder a halt, which is the fault action under every admitted table. -/
theorem forcedHaltKillsIntruder : Obligations.ForcedHaltKillsIntruder := by
  intro cfg s r hT hr hintruder
  have htick : tick cfg s = .next ((s.killRunning r).afterRun r) := by
    rw [tick_running hr, runTurn_hltWord hT hr (fetch_forced (Running.not_fetchesStored hintruder))]
    rfl
  obtain ⟨⟨⟨hsize, -, -, hothers⟩, -, hcore⟩, hproc, hkilled⟩ := State.killRunning_kills hr
  exact ⟨_, _, htick, (State.procAt_afterRun ..).trans hproc, hkilled, hcore,
    fun k n hkn => (State.procAt_afterRun ..).trans (hothers k n hkn), hsize⟩

/-- Settles O50: the turn leaves the liveness flag that the kill cause says, and the end of the tick moves cursors
only. -/
theorem processDiesExactlyByItsCauses : Obligations.ProcessDiesExactlyByItsCauses := by
  intro cfg s t r hT hpolicy hr h
  obtain ⟨q, hq, halive⟩ := (LeavesAlive.of_runTurn hT hpolicy hr).finishTick t ((tick_running hr).symm.trans h)
  refine ⟨q, hq, ?_⟩
  rw [halive, Ne, ← Option.isNone_iff_eq_none, Bool.not_eq_true]

end Sys2Proof.Proofs

/-! The statements about reset and loading (70_reset_and_hazards.md). A load is two operations on the groups, locate or
create the player's group and append a process to it, and one on the core, the placement of the program. Each keeps the
invariant and every other player's group; a valid placement is a window in a maximal free run. -/

namespace Sys2Proof.Machine

/-! ## A list with the first element of a search changed -/

section

variable {α : Type} {p q : α → Bool} {f : α → α}

theorem find?_modify_findIdx (hf : ∀ x, p (f x) = p x) (l : List α) :
    (l.modify (l.findIdx p) f).find? p = (l.find? p).map f := by
  induction l with
  | nil => rfl
  | cons x xs ih =>
    by_cases hx : p x = true
    · simp [List.findIdx_cons, hx, hf]
    · simp [List.findIdx_cons, hx, ih]

/-- Another search, for elements that the first one passes over, finds what it found. -/
theorem find?_modify_findIdx_other (hf : ∀ x, p (f x) = p x) (hqp : ∀ x, q x = true → p x = false) (l : List α) :
    (l.modify (l.findIdx q) f).find? p = l.find? p := by
  induction l with
  | nil => rfl
  | cons x xs ih =>
    by_cases hx : q x = true
    · simp [List.findIdx_cons, hx, hf, hqp x hx]
    · simp [List.findIdx_cons, hx, List.find?_cons, ih]

end

/-! ## The group of a player -/

/-- The group that a load of a player finds or creates; `State.groupOf_withGroup_self` ties it to `withGroup`. -/
def State.groupFor (s : State) (player : Nat) : Group := (s.groupOf player).getD (Group.fresh player)

section

variable {s : State} {g : Group} {player : Nat}

/-- The group of a player, with player numbers compared as naturals. -/
theorem State.groupOf_eq_find? (s : State) (player : Nat) :
    s.groupOf player = s.groups.find? (fun g => decide (g.player = player)) := by
  simp only [State.groupOf, Int.natCast_inj]

theorem State.groupOf_congr {t : State} (h : t.groups = s.groups) (k : Int) : t.groupOf k = s.groupOf k :=
  congrArg (List.find? _) h

theorem State.groupOf_player (hg : s.groupOf player = some g) : g.player = player := by
  rw [State.groupOf_eq_find?] at hg
  simpa using List.find?_some hg

theorem State.player_ne_of_groupOf_eq_none (hg : s.groupOf player = none) (hmem : g ∈ s.groups) :
    g.player ≠ player := by
  rw [State.groupOf_eq_find?, List.find?_eq_none] at hg
  exact fun hp => hg g hmem (decide_eq_true hp)

/-- The index of a player's group is where that group stands. -/
theorem State.getElem?_groupIndex (hg : s.groupOf player = some g) : s.groups[s.groupIndex player]? = some g := by
  rw [State.groupIndex, ← List.find?_eq_getElem?_findIdx, ← State.groupOf_eq_find?, hg]

theorem State.nextPid_eq (hg : s.groupOf player = some g) : s.nextPid player = g.nextPid := by
  rw [State.nextPid, State.getElem?_groupIndex hg]

/-! ## Locating or creating a group -/

theorem State.withGroup_of_some (hg : s.groupOf player = some g) : s.withGroup player = s := by
  rw [State.withGroup, hg]

theorem State.withGroup_of_none (hg : s.groupOf player = none) :
    s.withGroup player = { s with groups := s.groups ++ [Group.fresh player] } := by
  rw [State.withGroup, hg]

theorem State.withGroup_frame (s : State) (player : Nat) :
    (s.withGroup player).coreSize = s.coreSize ∧ (s.withGroup player).core = s.core ∧
    (s.withGroup player).gcur = s.gcur ∧ (s.withGroup player).draws = s.draws := by
  cases hg : s.groupOf player with
  | some g => rw [State.withGroup_of_some hg]; exact ⟨rfl, rfl, rfl, rfl⟩
  | none => rw [State.withGroup_of_none hg]; exact ⟨rfl, rfl, rfl, rfl⟩

theorem State.groupOf_withGroup_self (s : State) (player : Nat) :
    (s.withGroup player).groupOf player = some (s.groupFor player) := by
  cases hg : s.groupOf player with
  | some g => rw [State.withGroup_of_some hg, State.groupFor, hg, Option.getD_some]
  | none =>
    rw [State.withGroup_of_none hg, State.groupFor, hg, Option.getD_none]
    rw [State.groupOf_eq_find?] at hg ⊢
    simp [List.find?_append, hg]

theorem State.groupOf_withGroup_other (s : State) {k : Nat} (hk : k ≠ player) :
    (s.withGroup player).groupOf k = s.groupOf k := by
  cases hg : s.groupOf player with
  | some g => rw [State.withGroup_of_some hg]
  | none =>
    rw [State.withGroup_of_none hg, State.groupOf_eq_find?, State.groupOf_eq_find?]
    simp [List.find?_append, hk.symm]

theorem Group.fresh_wf (hlo : 1 ≤ player) (hhi : player ≤ 9) : (Group.fresh player).wf :=
  ⟨hlo, hhi, Nat.zero_lt_one, nofun, nofun⟩

/-- Creating a player's group keeps the invariant: the player had none, and the new group owns nothing. -/
theorem State.withGroup_wf (hs : s.wf) (hlo : 1 ≤ player) (hhi : player ≤ 9) : (s.withGroup player).wf := by
  cases hg : s.groupOf player with
  | some g => rwa [State.withGroup_of_some hg]
  | none =>
    obtain ⟨hsize, hmax, hcore, hgroups, hplayers, hcur⟩ := hs
    rw [State.withGroup_of_none hg]
    refine ⟨hsize, hmax, hcore.of_sameCore rfl rfl ?_, ?_, ?_, ?_⟩
    · rintro o ⟨h, hmem, ho⟩
      exact ⟨h, List.mem_append_left _ hmem, ho⟩
    · intro h hmem
      rcases List.mem_append.mp hmem with hold | hnew
      · exact hgroups h hold
      · exact List.mem_singleton.mp hnew ▸ Group.fresh_wf hlo hhi
    · rw [List.map_append, List.nodup_append]
      refine ⟨hplayers, List.nodup_singleton _, fun a ha b hb => ?_⟩
      obtain ⟨h, hmem, rfl⟩ := List.mem_map.mp ha
      exact List.mem_singleton.mp hb ▸ State.player_ne_of_groupOf_eq_none hg hmem
    · simp only [List.length_append, List.length_singleton]
      omega

end

/-! ## Appending a process to a player's group -/

/-- The process that a load appends to the group `g` of a player; `State.enroll_eq` ties it to `enroll`. -/
def Group.recruit (g : Group) (player base : Nat) (program : List Word) : Process :=
  Process.fresh (BitVec.ofNat 32 base) g.nextPid player program

section

variable {s : State} {g : Group} {player base : Nat} {program : List Word}

theorem Group.length_addProc (g : Group) (q : Process) : (g.addProc q).procs.length = g.procs.length + 1 :=
  List.length_append

/-- Ids count from 0 (R31, decision D10). -/
theorem Group.nextPid_eq (g : Group) : g.nextPid = g.procs.length := Nat.zero_add _

theorem State.groupOf_addProc_self (s : State) (player : Nat) (q : Process) :
    (s.addProc (s.groupIndex player) q).groupOf player = (s.groupOf player).map (fun g => g.addProc q) := by
  rw [State.groupOf_eq_find?, State.groupOf_eq_find?]
  refine find?_modify_findIdx (fun g => ?_) s.groups
  rw [Group.addProc_player]

theorem State.groupOf_addProc_other (s : State) {k : Nat} (hk : k ≠ player) (q : Process) :
    (s.addProc (s.groupIndex player) q).groupOf k = s.groupOf k := by
  rw [State.groupOf_eq_find?, State.groupOf_eq_find?]
  refine find?_modify_findIdx_other (fun g => ?_) (fun g hg => ?_) s.groups
  · rw [Group.addProc_player]
  · rw [decide_eq_true_iff] at hg
    exact decide_eq_false (hg ▸ hk.symm)

theorem State.addProc_groups_eq_set (hg : s.groupOf player = some g) (q : Process) :
    (s.addProc (s.groupIndex player) q).groups = s.groups.set (s.groupIndex player) (g.addProc q) := by
  rw [State.addProc_groups, List.modify_eq_set_getElem?, State.getElem?_groupIndex hg]
  rfl

/-- A group with a process appended meets the invariant when the process does at the end of the list. -/
theorem Group.addProc_wf {q : Process} (hg : g.wf) (hq : q.wf g.player g.procs.length) : (g.addProc q).wf := by
  obtain ⟨hlo, hhi, hpcur, hlast, hprocs⟩ := hg
  have hlen := g.length_addProc q
  refine ⟨hlo, hhi, ?_, fun i hi => ?_, fun i p hp => ?_⟩
  · rw [Group.addProc_pcur]; omega
  · have := hlast i hi; omega
  · rcases Nat.lt_or_ge i g.procs.length with hi | hi
    · exact hprocs i p (by rwa [Group.addProc_procs, List.getElem?_append_left hi] at hp)
    · obtain rfl : i = g.procs.length := by
        have := (List.getElem?_eq_some_iff.mp hp).1
        omega
      rw [Group.addProc_procs, List.getElem?_concat_length] at hp
      exact Option.some.inj hp ▸ hq

theorem Group.recruit_wf (hp : g.player = player) (hprog : program ≠ []) (base : Nat) :
    (g.recruit player base program).wf g.player g.procs.length :=
  ⟨rfl, hp.symm, hprog, by simp [Group.recruit]⟩

/-- The id of an appended process is one of those its group has given. -/
theorem State.tagNames_addProc (hg : s.groupOf player = some g) (q : Process) :
    (s.addProc (s.groupIndex player) q).tagNames ⟨player, g.nextPid⟩ := by
  have hself := State.groupOf_addProc_self s player q
  rw [hg, Option.map_some] at hself
  refine ⟨g.addProc q, List.mem_of_find?_eq_some hself, (g.addProc_player q).trans (State.groupOf_player hg),
    Nat.zero_le _, ?_⟩
  rw [Group.nextPid_eq, Group.nextPid_eq, Group.length_addProc]
  exact Nat.lt_succ_self _

theorem State.addProc_wf {q : Process} (hs : s.wf) (hg : s.groupOf player = some g)
    (hq : q.wf g.player g.procs.length) : (s.addProc (s.groupIndex player) q).wf := by
  have ⟨_, _, hcore, hgroups, _, _⟩ := hs
  have hat := State.getElem?_groupIndex hg
  have hset := State.addProc_groups_eq_set hg q
  refine State.wf_of_set hs hat hset rfl (Group.addProc_wf (hgroups g (List.mem_of_getElem? hat)) hq) rfl rfl ?_
  exact hcore.of_sameCore rfl rfl (fun _ => State.tagNames_of_set hat hset rfl (by simp))

/-! ## Placing a program keeps the invariant -/

theorem State.memWrite_coreWf {a : Int} {o : OwnerTag} (w : Word) (hs : s.coreWf) (ha : s.inRange a = true)
    (ho : s.tagNames o) : (s.memWrite a w o).coreWf := by
  obtain ⟨hcanon, hcells⟩ := hs
  rw [State.inRange_iff] at ha
  refine ⟨Memory.wf_write _ _ hcanon, fun b c hbc => ?_⟩
  rcases Memory.mem_write hcanon hbc with ⟨rfl, rfl⟩ | ⟨-, hold⟩
  · exact ⟨by rw [State.memWrite_coreSize]; omega, o, rfl, ho⟩
  · exact hcells b c hold

theorem State.place_coreWf {o : OwnerTag} (a : Int) (program : List Word) (hs : s.coreWf) (ho : s.tagNames o) :
    (s.place a program o).1.coreWf := by
  induction program generalizing s a with
  | nil => exact hs
  | cons w ws ih =>
    unfold State.place
    split
    · next ha => exact ih (a + 1) (State.memWrite_coreWf w hs ha ho) ho
    · exact hs

theorem State.place_keeps_wf {o : OwnerTag} (a : Int) (program : List Word) (hs : s.wf) (ho : s.tagNames o) :
    (s.place a program o).1.wf := by
  obtain ⟨hsize, hmax, hcore, hgroups, hplayers, hcur⟩ := hs
  refine ⟨?_, ?_, State.place_coreWf a program hcore ho, ?_, ?_, ?_⟩
  · rwa [State.place_coreSize]
  · rwa [State.place_coreSize]
  · rwa [State.place_groups]
  · rwa [State.place_groups]
  · rwa [State.place_groups, State.place_gcur]

/-! ## Creating and placing a player's process -/

theorem State.enroll_eq (hg : s.groupOf player = some g) :
    s.enroll player program base =
      ((s.addProc (s.groupIndex player) (g.recruit player base program)).place base program
        ⟨player, g.nextPid⟩).1 := by
  rw [State.enroll, State.nextPid_eq hg]
  rfl

theorem State.enroll_frame (s : State) (player : Nat) (program : List Word) (base : Nat) :
    (s.enroll player program base).coreSize = s.coreSize ∧ (s.enroll player program base).gcur = s.gcur ∧
    (s.enroll player program base).draws = s.draws :=
  ⟨State.place_coreSize .., State.place_gcur .., State.place_draws ..⟩

theorem State.enroll_players (hg : s.groupOf player = some g) :
    (s.enroll player program base).groups.map Group.player = s.groups.map Group.player := by
  rw [State.enroll_eq hg, State.place_groups, State.addProc_groups_eq_set hg]
  exact map_player_set (State.getElem?_groupIndex hg) rfl

theorem State.groupOf_enroll_self (hg : s.groupOf player = some g) :
    (s.enroll player program base).groupOf player = some (g.addProc (g.recruit player base program)) := by
  rw [State.enroll_eq hg, State.groupOf_congr (State.place_groups ..), State.groupOf_addProc_self, hg, Option.map_some]

theorem State.groupOf_enroll_other (hg : s.groupOf player = some g) {k : Nat} (hk : k ≠ player) :
    (s.enroll player program base).groupOf k = s.groupOf k := by
  rw [State.enroll_eq hg, State.groupOf_congr (State.place_groups ..), State.groupOf_addProc_other s hk]

theorem State.enroll_read_in (hg : s.groupOf player = some g) (hfits : base + program.length ≤ s.coreSize) {i : Nat}
    {w : Word} (hw : program[i]? = some w) :
    Memory.read (s.enroll player program base).core (base + i) = ⟨w, some ⟨player, g.nextPid⟩⟩ := by
  have hi := (List.getElem?_eq_some_iff.mp hw).1
  rw [State.enroll_eq hg]
  exact State.place_read_in (s.addProc _ _) base program _ (Int.natCast_nonneg base) hw
    (by rw [State.addProc_coreSize, Int.toNat_natCast]; omega)

theorem State.enroll_read_out (s : State) (player : Nat) {a : Nat} (ha : a < base ∨ base + program.length ≤ a) :
    Memory.read (s.enroll player program base).core a = Memory.read s.core a :=
  State.place_read_out (s.addProc _ _) base program _ (Int.natCast_nonneg base) a
    (by rw [Int.toNat_natCast]; exact ha.imp_right Or.inl)

theorem State.enroll_wf (hs : s.wf) (hg : s.groupOf player = some g) (hprog : program ≠ []) :
    (s.enroll player program base).wf := by
  have hq := Group.recruit_wf (State.groupOf_player hg) hprog base
  rw [State.enroll_eq hg]
  exact State.place_keeps_wf base program (State.addProc_wf hs hg hq) (State.tagNames_addProc hg _)

/-! ## What a load answers -/

theorem State.load_badPlayer (s : State) (program : List Word) (base : Nat) (h : ¬(1 ≤ player ∧ player ≤ 9)) :
    s.load player program base = .refused .badPlayer := if_pos h

theorem State.load_emptyProgram (s : State) (base : Nat) (h : 1 ≤ player ∧ player ≤ 9) :
    s.load player [] base = .refused .emptyProgram := by
  rw [State.load, if_neg (not_not_intro h), if_pos rfl]

theorem State.load_valid (h : 1 ≤ player ∧ player ≤ 9) (hprog : program ≠ [])
    (hb : s.validPlacement program.length base = true) :
    s.load player program base = .loaded ((s.withGroup player).enroll player program base) := by
  rw [State.load, if_neg (not_not_intro h), if_neg hprog, if_pos hb]

theorem State.load_full (h : 1 ≤ player ∧ player ≤ 9) (hprog : program ≠ []) (base : Nat)
    (hfull : ∀ b, s.validPlacement program.length b = false) :
    s.load player program base = .insufficientMemory (s.withGroup player) := by
  have hnil : s.validPlacements program.length = [] := List.filter_eq_nil_iff.mpr fun b _ => by simp [hfull b]
  rw [State.load, if_neg (not_not_intro h), if_neg hprog, if_neg (by simp [hfull base]), if_pos hnil]

/-- A load that is made had legal arguments and a valid placement. -/
theorem State.load_loaded {t : State} (h : s.load player program base = .loaded t) :
    (1 ≤ player ∧ player ≤ 9) ∧ program ≠ [] ∧ s.validPlacement program.length base = true ∧
    t = (s.withGroup player).enroll player program base := by
  unfold State.load at h
  split_ifs at h with hplayer hprog hb
  cases h
  exact ⟨hplayer, hprog, hb, rfl⟩

/-- A load that fails for want of room had a legal player. -/
theorem State.load_insufficientMemory {t : State} (h : s.load player program base = .insufficientMemory t) :
    (1 ≤ player ∧ player ≤ 9) ∧ t = s.withGroup player := by
  unfold State.load at h
  split_ifs at h with hplayer
  cases h
  exact ⟨hplayer, rfl⟩

end

/-! ## Free runs and valid placements -/

section

variable {s : State}

/-- The cells of `[lo, hi)` are unowned. -/
def State.freeBetween (s : State) (lo hi : Nat) : Prop :=
  ∀ a, lo ≤ a → a < hi → (Memory.read s.core a).owner = none

theorem State.freeBetween_iff (s : State) (b n : Nat) :
    s.freeBetween b (b + n) ↔ ∀ i, i < n → (Memory.read s.core (b + i)).owner = none := by
  refine ⟨fun h i hi => h _ (by omega) (by omega), fun h a hlo hhi => ?_⟩
  obtain ⟨i, rfl⟩ := Nat.exists_eq_add_of_le hlo
  exact h i (by omega)

theorem State.freeBetween.mono {lo hi lo' hi' : Nat} (h : s.freeBetween lo hi) (hlo : lo ≤ lo') (hhi : hi' ≤ hi) :
    s.freeBetween lo' hi' := fun a ha ha' => h a (by omega) (by omega)

/-- An interval of unowned cells reaches down to the core's start or to an owned cell. -/
theorem State.freeBetween.extend_down {lo hi : Nat} (h : s.freeBetween lo hi) :
    ∃ r, r ≤ lo ∧ s.freeBetween r hi ∧ (r = 0 ∨ (Memory.read s.core (r - 1)).owner ≠ none) := by
  induction lo with
  | zero => exact ⟨0, Nat.le_refl 0, h, Or.inl rfl⟩
  | succ lo ih =>
    by_cases ho : (Memory.read s.core lo).owner = none
    · have hfree : s.freeBetween lo hi := fun a hlo hhi => by
        rcases Nat.eq_or_lt_of_le hlo with rfl | hlt
        · exact ho
        · exact h a hlt hhi
      obtain ⟨r, hr, hrest⟩ := ih hfree
      exact ⟨r, Nat.le_succ_of_le hr, hrest⟩
    · exact ⟨lo + 1, Nat.le_refl _, h, Or.inr ho⟩

/-- An interval of unowned cells reaches up to the core's end or to an owned cell. -/
theorem State.freeBetween.extend_up {lo hi : Nat} (h : s.freeBetween lo hi) (hhi : hi ≤ s.coreSize) :
    ∃ e, hi ≤ e ∧ e ≤ s.coreSize ∧ s.freeBetween lo e ∧
      (e = s.coreSize ∨ (Memory.read s.core e).owner ≠ none) := by
  obtain ⟨d, hd⟩ := Nat.exists_eq_add_of_le hhi
  induction d generalizing hi with
  | zero => exact ⟨hi, Nat.le_refl _, hhi, h, Or.inl hd.symm⟩
  | succ d ih =>
    by_cases ho : (Memory.read s.core hi).owner = none
    · have hfree : s.freeBetween lo (hi + 1) := fun a hlo ha => by
        rcases Nat.eq_or_lt_of_le (Nat.le_of_lt_succ ha) with rfl | hlt
        · exact ho
        · exact h a hlo hlt
      obtain ⟨e, he, hrest⟩ := ih hfree (by omega) (by omega)
      exact ⟨e, Nat.le_of_succ_le he, hrest⟩
    · exact ⟨hi, Nat.le_refl _, hhi, h, Or.inr ho⟩

theorem State.validPlacement_iff (s : State) (n b : Nat) :
    s.validPlacement n b = true ↔ b + n ≤ s.coreSize ∧ s.freeBetween b (b + n) := by
  rw [State.freeBetween_iff]
  simp [State.validPlacement, Memory.unowned]

/-- A program that is not empty fits only at an address of the core, so the list of placements misses none. -/
theorem State.mem_validPlacements {n : Nat} (hn : 1 ≤ n) (b : Nat) :
    b ∈ s.validPlacements n ↔ s.validPlacement n b = true := by
  rw [State.validPlacements, List.mem_filter, List.mem_range, and_iff_right_iff_imp, State.validPlacement_iff]
  intro h
  omega

/-- A valid placement is an offset in the maximal free run around it, and every such offset is one (R313). -/
theorem State.validPlacement_iff_freeRun (s : State) (n b : Nat) :
    s.validPlacement n b = true ↔ ∃ r k, s.freeRun r k ∧ n ≤ k ∧ r ≤ b ∧ b ≤ r + k - n := by
  rw [State.validPlacement_iff]
  constructor
  · rintro ⟨hroom, hfree⟩
    obtain ⟨r, hr, hdown, hstart⟩ := hfree.extend_down
    obtain ⟨e, hbe, he, hup, hend⟩ := hdown.extend_up hroom
    obtain ⟨k, rfl⟩ := Nat.exists_eq_add_of_le (show r ≤ e by omega)
    exact ⟨r, k, ⟨he, (s.freeBetween_iff r k).mp hup, hstart, hend⟩, by omega, hr, by omega⟩
  · rintro ⟨r, k, ⟨hcore, hfree, -, -⟩, hn, hr, hb⟩
    exact ⟨by omega, ((s.freeBetween_iff r k).mpr hfree).mono hr (by omega)⟩

end

/-! ## The reset state -/

/-- Every machine of a legal size without cells and groups meets the invariant. -/
theorem State.ofSize_wf {n : Nat} (hlo : 1 ≤ n) (hhi : n ≤ 65535) : (State.ofSize n).wf :=
  ⟨hlo, hhi, ⟨rfl, nofun⟩, nofun, List.nodup_nil, Nat.zero_lt_one⟩

theorem construct_wf {n : Nat} {s : State} (h : construct n = .ok s) : s.wf := by
  by_cases hn : 1 ≤ n ∧ n ≤ 65535
  · obtain rfl := Except.ok.inj ((construct_ok hn).symm.trans h)
    exact State.ofSize_wf hn.1 hn.2
  · cases (construct_error hn).symm.trans h

end Sys2Proof.Machine

/-! ## The statements about reset and loading -/

namespace Sys2Proof.Proofs

open Sys2Proof Sys2Proof.Machine

/-- Settles O52: the load is made on the machine with the player's group located or created, and appends to that
group. -/
theorem loadPlacesProgram : Obligations.LoadPlacesProgram := by
  intro s player base program hlo hhi hprog hb
  have hg := s.groupOf_withGroup_self player
  obtain ⟨hsize, hcore, hcur, hdraws⟩ := s.withGroup_frame player
  obtain ⟨hsize', hcur', hdraws'⟩ := (s.withGroup player).enroll_frame player program base
  obtain ⟨hroom, -⟩ := (s.validPlacement_iff _ _).mp hb
  refine ⟨_, _, (s.groupFor player).recruit player base program, State.load_valid ⟨hlo, hhi⟩ hprog hb,
    State.groupOf_enroll_self hg, ?_, fun k => Process.fresh_read _ _ _ _ k, rfl, rfl, rfl, rfl, ?_, rfl, rfl,
    fun i w hw => State.enroll_read_in hg (hsize.symm ▸ hroom) hw,
    fun a ha => hcore ▸ State.enroll_read_out _ player ha,
    (Group.addProc_player _ _).trans (State.groupOf_player hg), ?_,
    fun k hk => (State.groupOf_enroll_other hg hk).trans (s.groupOf_withGroup_other hk),
    (State.enroll_players hg).trans ?_, hsize'.trans hsize, hcur'.trans hcur, hdraws'.trans hdraws⟩
  · rw [Group.addProc_procs, State.groupFor]
    cases s.groupOf player <;> rfl
  · rw [Group.length_addProc, ← Group.nextPid_eq]
    rfl
  · rw [Group.addProc_pcur, Group.addProc_last, State.groupFor]
    cases s.groupOf player <;> exact ⟨rfl, rfl⟩
  · cases hg' : s.groupOf player with
    | some g => rw [State.withGroup_of_some hg']
    | none => rw [State.withGroup_of_none hg', List.map_append]; rfl

/-- Settles O54: the free run of a placement is the placement's interval extended both ways; a load that is made started
at a placement, and its cells are those of `loadPlacesProgram`. -/
theorem validPlacementsAreOffsetsInFreeRuns : Obligations.ValidPlacementsAreOffsetsInFreeRuns := by
  intro s n b hn
  refine ⟨?_, ?_, fun player program t hlen h => ?_⟩
  · rw [State.mem_validPlacements hn, State.validPlacement_iff_freeRun]
  · rw [State.mem_validPlacements hn, State.validPlacement_iff, State.freeBetween_iff]
  · subst hlen
    obtain ⟨⟨hlo, hhi⟩, hprog, hb, -⟩ := State.load_loaded h
    obtain ⟨t', g, q, ht', hg, hprocs, -, -, -, -, -, -, -, -, hcells, -⟩ :=
      loadPlacesProgram s player b program hlo hhi hprog hb
    obtain rfl := LoadResult.loaded.inj (h.symm.trans ht')
    exact ⟨(s.validPlacement_iff_freeRun _ b).mp hb, g, q, hg, by rw [hprocs, List.getLast?_concat], hcells⟩

/-- Settles O53: the tests of the arguments come first, then the search for room; the group is created before it. -/
theorem loadFailureLeavesEmptyGroup : Obligations.LoadFailureLeavesEmptyGroup := by
  intro s player base program
  refine ⟨s.load_badPlayer program base, ?_, fun hlo hhi hprog hfull => ?_⟩
  · rintro hlo hhi rfl
    exact s.load_emptyProgram base ⟨hlo, hhi⟩
  · rw [State.load_full ⟨hlo, hhi⟩ hprog base hfull]
    cases hg : s.groupOf player with
    | some g => rw [State.withGroup_of_some hg]
    | none => rw [State.withGroup_of_none hg]; rfl

/-- Settles O12: a new group is empty and owns nothing, and the cells of the program carry the tag of the process that
was appended. -/
theorem loadKeepsInvariant : Obligations.LoadKeepsInvariant := by
  intro s t player base program hs h
  rcases h with hloaded | hfull
  · obtain ⟨⟨hlo, hhi⟩, hprog, -, rfl⟩ := State.load_loaded hloaded
    exact State.enroll_wf (State.withGroup_wf hs hlo hhi) (s.groupOf_withGroup_self player) hprog
  · obtain ⟨⟨hlo, hhi⟩, rfl⟩ := State.load_insufficientMemory hfull
    exact State.withGroup_wf hs hlo hhi

/-- Settles O10: a machine of a legal size lists no cell and no group. -/
theorem resetSatisfiesInvariant : Obligations.ResetSatisfiesInvariant := by
  have hreset : construct State.reset.coreSize = .ok State.reset := construct_ok (by decide)
  exact ⟨hreset, rfl, rfl, construct_wf hreset, fun _ _ h => construct_wf h⟩

end Sys2Proof.Proofs
